-- ==== Sys2Proof/Word.lean ====
section
/-! DEFINITION. The fixed-width values of PT-FSYNC (00_scope.md R5, R7; 10_state.md R14 to R16; 30_encoding.md R50). -/

namespace Sys2Proof

/-- One byte of the link, of the window and of an immediate (R5). -/
abbrev Byte := BitVec 8

/-- One command word, 16 bits, bit 0 least significant (R7, R50, R52). -/
abbrev CmdWord := BitVec 16

/-- A response word, a register value or an event counter, 32 bits (R24, R28, R50). -/
abbrev Word := BitVec 32

/-- One sample, 16 bits (R5, R23). -/
abbrev Sample := BitVec 16

/-- A window cursor, START or LENGTH, 9 bits (R15, R16). -/
abbrev Cursor := BitVec 9

end Sys2Proof
end

