-- ==== Sys2Proof/Config.lean ====
section
/-! DEFINITION. The parameters that 00_scope.md R5 fixes for PT-FSYNC. No value of the spec is left open to a
configuration, so there is no free value here (log entries 3 and 9). -/

namespace Sys2Proof.Config

/-- CAP, the capacity of the byte window in bytes (R5). -/
abbrev cap : Nat := 256

/-- One byte of the preamble (R5). -/
abbrev preambleByte : Byte := 0xAA#8

/-- PLEN, the length of the preamble in bytes (R5). -/
abbrev preambleLen : Nat := 3

/-- PRE, the preamble as a 24-bit big-endian value (R5). -/
abbrev preambleValue : Nat := 0xAAAAAA

/-- NS, the samples in one frame (R5). -/
abbrev numSamples : Nat := 5

/-- FLEN, the length of a frame in bytes: PLEN + NS * 2 (R5, R6). -/
abbrev frameLen : Nat := 13

/-- The constant register PARAM (10_state.md R27). -/
abbrev param : Word := 0xAA530100#32

end Sys2Proof.Config
end

