-- ==== Sys2Proof/Syntax.lean ====
section
/-! DEFINITION. The commands of PT-FSYNC, one constructor per row of spec/opcode_table.json (30_encoding.md R53),
the raw fields of a command word (R52), the names of the register map (10_state.md R28) and the lines of a command
script (R57, R58). -/

namespace Sys2Proof

/-- A command of the host. The only operand of any command is the 8-bit IMM (10_state.md R12, R54). -/
inductive Instr
  /-- NOP, 40_window_ops.md R59. -/
  | nop
  /-- CLEAR, 40_window_ops.md R60. -/
  | clear
  /-- WRITE b, 40_window_ops.md R61. -/
  | write (data : Byte)
  /-- SCAN, 41_sync.md R66. -/
  | scan
  /-- DECODE, 42_decode.md R69. -/
  | decode
  /-- CYCLE, 43_cycle.md R71. -/
  | cycle
  /-- COMPACT, 40_window_ops.md R62. -/
  | compact
  /-- RDREG n, 44_register_access.md R74. -/
  | rdreg (index : Byte)
  /-- RDVIEW i, 44_register_access.md R75. -/
  | rdview (index : Byte)
deriving DecidableEq, Repr

/-- The three fields of format C (R52), with no check made yet. -/
structure RawCommand where
  op  : BitVec 4
  rsv : BitVec 4
  imm : Byte
deriving DecidableEq, Repr

/-- One row of the opcode map: a word matches it when the word under `mask` is `bits` (R53). -/
structure OpcodeRow where
  mnemonic : String
  bits     : CmdWord
  mask     : CmdWord
deriving DecidableEq, Repr

/-- The registers of the map (10_state.md R28), by name. -/
inductive Reg
  | status | start | length | free | param
  | frameCount | discardCount | misalignCount | overflowCount | illegalCount
  | room
  | sample0 | sample1 | sample2 | sample3 | sample4
deriving DecidableEq, Repr

/-- One line of a command script (30_encoding.md R57, R58): a command, an arbitrary word, or a pseudo-command. -/
inductive ScriptLine
  /-- A line that is empty or only a comment. -/
  | blank
  | command (i : Instr)
  /-- `.word 0xNNNN`, legal or not. -/
  | word (w : CmdWord)
  /-- FEED b0, ..., bn-1: one byte-source delivery of n bytes. -/
  | feed (bs : List Byte)
  /-- FEEDN n, b: n copies of WRITE b. -/
  | feedN (n : Nat) (b : Byte)
  /-- POLL b0, ..., bn-1: FEED, then CYCLE. -/
  | poll (bs : List Byte)
  | rdStatus
  | rdSamples
deriving DecidableEq, Repr

end Sys2Proof
end

