-- ==== Sys2Proof/WellFormed.lean ====
section
/-! DEFINITION. When the fields of a command word are legal (30_encoding.md R55), one check per condition, and the
name of each way to be illegal. A term of `Instr` has no ill-formed value: its operands are bytes by type. -/

namespace Sys2Proof

/-- Why a command word is illegal (R55), in the order the decoder looks. R55 gives the three conditions no order and
the block records none of them (60_exceptions.md R79), so the order is not observable. -/
inductive IllegalReason
  /-- OP is 0x9 to 0xF. -/
  | reservedOpcode (op : BitVec 4)
  /-- RSV is not 0. -/
  | reservedField (rsv : BitVec 4)
  /-- OP is a command that takes no operand and IMM is not 0. -/
  | unusedImmediate (imm : Byte)
deriving DecidableEq, Repr

/-- OP names one of the nine commands (R53). -/
def RawCommand.opKnown (c : RawCommand) : Bool := decide (c.op.toNat ≤ 8)

/-- RSV is 0 (R52). -/
def RawCommand.rsvClear (c : RawCommand) : Bool := c.rsv == 0#4

/-- WRITE, RDREG and RDVIEW are the commands whose IMM is an operand (R52, R54). -/
def RawCommand.takesImm (c : RawCommand) : Bool := c.op == 2#4 || c.op == 7#4 || c.op == 8#4

/-- IMM is 0 unless it is an operand (R52). -/
def RawCommand.immAllowed (c : RawCommand) : Bool := c.takesImm || c.imm == 0#8

/-- The fields are a legal command (R55). -/
def RawCommand.wellFormed (c : RawCommand) : Bool := c.opKnown && c.rsvClear && c.immAllowed

end Sys2Proof
end

