-- ==== Sys2Proof/Decode.lean ====
section
/-! DEFINITION. The decoder, total on every 16-bit word, with each illegal word rejected by name (30_encoding.md R52 to
R56); the encoder; and the opcode map as rows of match and mask (R53), written apart from the decoder. -/

namespace Sys2Proof

/-- OP = w[3:0], RSV = w[7:4], IMM = w[15:8] (R52). -/
def fieldsOf (w : CmdWord) : RawCommand :=
  { op := w.extractLsb' 0 4, rsv := w.extractLsb' 4 4, imm := w.extractLsb' 8 8 }

/-- A command without an operand: IMM must be 0 (R55). -/
def decodePlain (imm : Byte) (i : Instr) : Except IllegalReason Instr :=
  if imm = 0#8 then .ok i else .error (.unusedImmediate imm)

/-- The command that legal fields stand for (R53, R54). -/
def decodeFields (c : RawCommand) : Except IllegalReason Instr :=
  if c.rsv = 0#4 then
    match c.op.toNat with
    | 0 => decodePlain c.imm .nop
    | 1 => decodePlain c.imm .clear
    | 2 => .ok (.write c.imm)
    | 3 => decodePlain c.imm .scan
    | 4 => decodePlain c.imm .decode
    | 5 => decodePlain c.imm .cycle
    | 6 => decodePlain c.imm .compact
    | 7 => .ok (.rdreg c.imm)
    | 8 => .ok (.rdview c.imm)
    | _ => .error (.reservedOpcode c.op)
  else .error (.reservedField c.rsv)

/-- The decoder (R53, R55, R56). -/
def decode (w : CmdWord) : Except IllegalReason Instr := decodeFields (fieldsOf w)

/-- A command word is legal when the decoder accepts it, illegal otherwise (R55). -/
def isLegal (w : CmdWord) : Bool :=
  match decode w with
  | .ok _    => true
  | .error _ => false

/-- The word with IMM, RSV = 0 and OP, most significant first (R52). -/
def packFields (op : BitVec 4) (imm : Byte) : CmdWord := imm ++ 0#4 ++ op

/-- The encoder: the command word of an instruction (R53). -/
def encode : Instr → CmdWord
  | .nop      => packFields 0x0#4 0#8
  | .clear    => packFields 0x1#4 0#8
  | .write b  => packFields 0x2#4 b
  | .scan     => packFields 0x3#4 0#8
  | .decode   => packFields 0x4#4 0#8
  | .cycle    => packFields 0x5#4 0#8
  | .compact  => packFields 0x6#4 0#8
  | .rdreg n  => packFields 0x7#4 n
  | .rdview i => packFields 0x8#4 i

/-- The row of R53 that an instruction belongs to. -/
def rowOf : Instr → OpcodeRow
  | .nop      => ⟨"NOP",     0x0000#16, 0xFFFF#16⟩
  | .clear    => ⟨"CLEAR",   0x0001#16, 0xFFFF#16⟩
  | .write _  => ⟨"WRITE",   0x0002#16, 0x00FF#16⟩
  | .scan     => ⟨"SCAN",    0x0003#16, 0xFFFF#16⟩
  | .decode   => ⟨"DECODE",  0x0004#16, 0xFFFF#16⟩
  | .cycle    => ⟨"CYCLE",   0x0005#16, 0xFFFF#16⟩
  | .compact  => ⟨"COMPACT", 0x0006#16, 0xFFFF#16⟩
  | .rdreg _  => ⟨"RDREG",   0x0007#16, 0x00FF#16⟩
  | .rdview _ => ⟨"RDVIEW",  0x0008#16, 0x00FF#16⟩

/-- The opcode map (R53), one row per command. -/
def opcodeTable : List OpcodeRow :=
  [rowOf .nop, rowOf .clear, rowOf (.write 0), rowOf .scan, rowOf .decode, rowOf .cycle, rowOf .compact,
   rowOf (.rdreg 0), rowOf (.rdview 0)]

/-- A word matches a row under the row's mask (R53). -/
def OpcodeRow.covers (r : OpcodeRow) (w : CmdWord) : Bool := w &&& r.mask == r.bits

/-- The command word of a table row given as `nbits` bits. The command port takes the word whole (20_memory.md R38),
so no byte order applies; bits at and above `nbits` are 0. -/
def tableWord (nbits w : Nat) : CmdWord := BitVec.ofNat 16 (w % 2 ^ nbits)

/-- What the decoder reads from a word numbered as spec/opcode_table.json numbers it. -/
def decodeTableWord (nbits w : Nat) : Option Instr :=
  match decode (tableWord nbits w) with
  | .ok i    => some i
  | .error _ => none

end Sys2Proof
end

