-- ==== Sys2Proof/Machine/State.lean ====
section
/-! DEFINITION. The state of PT-FSYNC (10_state.md R11) as plain data, the two ports a transaction goes through
(30_encoding.md R50; 10_state.md R26), the reasons a step can stop, and the state after reset (R30). -/

namespace Sys2Proof.Machine

/-- The window memory W (R14): (index, byte) pairs, indices strictly rising. An index that is not listed holds a byte
that nothing has written, which has no value (R18, R30; log entry 2). -/
abbrev Memory := List Host.Cell

/-- The result codes that a command can end with (60_exceptions.md R76). Codes 8 to 15 are never produced and have no
name. -/
inductive ResultCode
  | ok | notFound | found | incomplete | decoded | misaligned | overflow | illegal
deriving DecidableEq, Repr

/-- The computed STATE (R20). Its encoding 3 is never produced and has no name. -/
inductive SyncState
  | seeking | awaitingBody | frameReady
deriving DecidableEq, Repr

/-- Five samples: the registers SAMPLE[0..4] (R23), or the values of one FrameOut event (R26). -/
structure Samples where
  s0 : Sample
  s1 : Sample
  s2 : Sample
  s3 : Sample
  s4 : Sample
deriving DecidableEq, Repr

/-- The five event counters (R24), each 32 bits. -/
structure Counters where
  /-- FRAME_COUNT -/
  frame    : Word
  /-- DISCARD_COUNT -/
  discard  : Word
  /-- MISALIGN_COUNT -/
  misalign : Word
  /-- OVERFLOW_COUNT -/
  overflow : Word
  /-- ILLEGAL_COUNT -/
  illegal  : Word
deriving DecidableEq, Repr

/-- The state of the block itself, exactly what R11 lists. -/
structure Block where
  /-- The window memory W (R14). -/
  window   : Memory
  /-- START (R15). -/
  start    : Cursor
  /-- LENGTH (R16). -/
  length   : Cursor
  /-- SYNC (R19). -/
  sync     : Bool
  /-- SVALID (R21). -/
  svalid   : Bool
  /-- RESULT (R22). -/
  result   : ResultCode
  /-- SAMPLE[0..4] (R23). -/
  samples  : Samples
  /-- The event counters (R24). -/
  counters : Counters
deriving DecidableEq, Repr

/-- One thing the host does to the block between two commands: issue a command word (R50) or assert reset
(70_reset_and_hazards.md R89). -/
inductive HostEvent
  | command (w : CmdWord)
  | reset
deriving DecidableEq, Repr

/-- The machine: the block, the host's input to it that has not been taken yet, and what has left its two output
ports. The last three are the model's own way to hold a transaction system's input and outputs (log entry 1). -/
structure State where
  block     : Block
  /-- The host's events still to come, next first (R32, R45). -/
  pending   : List HostEvent
  /-- Every response word delivered so far, oldest first (R50). -/
  responses : List Word
  /-- Every FrameOut event emitted so far, oldest first (R26). -/
  frames    : List Samples
deriving DecidableEq, Repr

/-- What one command does (R50): the block after it, its response word, its FrameOut event if it emits one. -/
structure Reply where
  block    : Block
  response : Word
  frame    : Option Samples
deriving DecidableEq, Repr

/-- What the scan loop returns (41_sync.md R64): the scan offset k and whether a preamble stands there. -/
structure ScanResult where
  offset : Nat
  found  : Bool
deriving DecidableEq, Repr

/-- The machine stops. Neither reason can arise in a state that a run from reset reaches: PT-FSYNC itself has no
fault and no trap (60_exceptions.md R85, R98, R99). -/
inductive Fault
  /-- WRITE, COMPACT, SCAN, DECODE, CYCLE or RDVIEW would interpret a window byte that nothing has written, which
  "must never be interpreted" (R18). Safe: the model stops where no value is known. -/
  | garbageRead
  /-- WRITE would store at an index past the end of the window, which does not exist (20_memory.md R33). Safe: it
  needs START + LENGTH > CAP, a state with no meaning (R17). -/
  | outsideWindow
deriving DecidableEq, Repr

/-- The model gives no meaning. -/
inductive Refusal
  /-- An arm of exec that has no meaning yet, by the mnemonic of its row. No arm answers with it. Safe. -/
  | notModelled (mnemonic : String)
  /-- The step, asked to run a command in a state that breaks START + LENGTH <= CAP (R17) or the SYNC invariant
  (R19). Such a state is not reachable from reset "and has no meaning in this spec"; 93_implementation_defined.md
  A14 says to refuse it. Safe. -/
  | illFormedState
deriving DecidableEq, Repr

/-- The block right after reset (R30). The window's bytes are unspecified, so none is listed. -/
def Block.reset : Block :=
  { window := [], start := 0#9, length := 0#9, sync := false, svalid := false, result := .ok,
    samples := ⟨0#16, 0#16, 0#16, 0#16, 0#16⟩, counters := ⟨0#32, 0#32, 0#32, 0#32, 0#32⟩ }

/-- The machine right after power-on reset: the block reset (R30), the host yet silent, nothing delivered. -/
def State.reset : State :=
  { block := Block.reset, pending := [], responses := [], frames := [] }

end Sys2Proof.Machine
end

