-- ==== Sys2Proof/Machine/Flags.lean ====
section
/-! DEFINITION. Every flag computation of the spec: result codes and their counters (60_exceptions.md R76), the event
counters (10_state.md R24), STATE (R20), FREE and ROOM (R25) and the STATUS register (R29). -/

namespace Sys2Proof.Machine

/-- The 4-bit code of a result (60_exceptions.md R76). -/
def ResultCode.code : ResultCode → BitVec 4
  | .ok         => 0#4
  | .notFound   => 1#4
  | .found      => 2#4
  | .incomplete => 3#4
  | .decoded    => 4#4
  | .misaligned => 5#4
  | .overflow   => 6#4
  | .illegal    => 7#4

/-- The response word of a command that ends with a result code: zext_32(code) (R51). -/
def ResultCode.word (c : ResultCode) : Word := c.code.setWidth 32

/-- FRAME_COUNT + 1, modulo 2^32 (R24). -/
def Counters.addFrame (c : Counters) : Counters := { c with frame := c.frame + 1#32 }

/-- DISCARD_COUNT + k, modulo 2^32 (R24). -/
def Counters.addDiscard (c : Counters) (k : Nat) : Counters := { c with discard := c.discard + BitVec.ofNat 32 k }

/-- MISALIGN_COUNT + 1, modulo 2^32 (R24). -/
def Counters.addMisalign (c : Counters) : Counters := { c with misalign := c.misalign + 1#32 }

/-- OVERFLOW_COUNT + 1, modulo 2^32 (R24). -/
def Counters.addOverflow (c : Counters) : Counters := { c with overflow := c.overflow + 1#32 }

/-- ILLEGAL_COUNT + 1, modulo 2^32 (R24). -/
def Counters.addIllegal (c : Counters) : Counters := { c with illegal := c.illegal + 1#32 }

/-- The counter of a result code, incremented (the last column of R76; used by `raise`, R78). -/
def Counters.countResult (c : Counters) : ResultCode → Counters
  | .decoded    => c.addFrame
  | .misaligned => c.addMisalign
  | .overflow   => c.addOverflow
  | .illegal    => c.addIllegal
  | .ok         => c
  | .notFound   => c
  | .found      => c
  | .incomplete => c

/-- START as the natural number cursor arithmetic is done on (00_scope.md R8). -/
def Block.startN (b : Block) : Nat := b.start.toNat

/-- LENGTH as a natural number (R8). -/
def Block.lengthN (b : Block) : Nat := b.length.toNat

/-- The tail START + LENGTH, where the next byte is written (R10, R61). -/
def Block.tail (b : Block) : Nat := b.startN + b.lengthN

/-- FREE = CAP - (START + LENGTH) (R25). -/
def Block.free (b : Block) : Nat := Config.cap - b.tail

/-- ROOM = CAP - LENGTH (R25). -/
def Block.room (b : Block) : Nat := Config.cap - b.lengthN

/-- STATE, computed from SYNC and LENGTH (R20). -/
def Block.syncState (b : Block) : SyncState :=
  if b.sync then (if b.lengthN < Config.frameLen then .awaitingBody else .frameReady) else .seeking

/-- The 2-bit encoding of STATE (R20). -/
def SyncState.code : SyncState → BitVec 2
  | .seeking      => 0#2
  | .awaitingBody => 1#2
  | .frameReady   => 2#2

/-- STATUS = {24'b0, RESULT, STATE, SVALID, SYNC} (R29). -/
def Block.status (b : Block) : Word :=
  0#24 ++ b.result.code ++ b.syncState.code ++ BitVec.ofBool b.svalid ++ BitVec.ofBool b.sync

end Sys2Proof.Machine
end

