-- ==== Sys2Proof/Machine/Ops.lean ====
section
/-! DEFINITION. The operations that commands share: reads and writes of the window memory and of the registers, how a
command ends (60_exceptions.md R77, R78; 00_scope.md R9), and the helpers the spec's pseudocode names: clear_window
(R60), compact_core (R62), scan_core (R64) and extract (R68). -/

namespace Sys2Proof.Machine

/-! ## The window memory -/

/-- W[a]: the byte at an index, or no value where nothing has been written (R9, R18). -/
def Memory.read : Memory → Nat → Option Byte
  | [], _ => none
  | c :: m, a => if a = c.1 then some c.2 else Memory.read m a

/-- W[a] <- v, keeping the indices strictly rising (R9). -/
def Memory.write : Memory → Nat → Byte → Memory
  | [], a, v => [(a, v)]
  | c :: m, a, v =>
    if a < c.1 then (a, v) :: c :: m
    else if a = c.1 then (a, v) :: m
    else c :: Memory.write m a v

/-- The indices rise strictly from `lo` on and stay inside the window. -/
def Memory.risingFrom : Nat → Memory → Bool
  | _, [] => true
  | lo, c :: m => decide (lo ≤ c.1) && decide (c.1 < Config.cap) && Memory.risingFrom (c.1 + 1) m

/-- The canonical form: strictly rising indices, all of them of the window (R14, R33). An unlisted index reads as no
value, so no entry can equal it. -/
def Memory.wf (m : Memory) : Bool := Memory.risingFrom 0 m

/-- The bytes W[a], ..., W[a+n-1], if all of them have a value. -/
def Memory.readBytes (m : Memory) : Nat → Nat → Option (List Byte)
  | _, 0 => some []
  | a, n + 1 =>
    match m.read a, Memory.readBytes m (a + 1) n with
    | some v, some vs => some (v :: vs)
    | _, _ => none

/-- Bytes written to consecutive indices from `a` on. -/
def Memory.writeBytes : Memory → Nat → List Byte → Memory
  | m, _, [] => m
  | m, a, v :: vs => Memory.writeBytes (m.write a v) (a + 1) vs

/-- Bytes concatenated big-endian, the first one most significant (20_memory.md R37). -/
def bigEndian (vs : List Byte) : Nat := vs.foldl (fun acc v => acc * 256 + v.toNat) 0

/-- MemRead(a, n) (R9, R37). -/
def Memory.memRead (m : Memory) (a n : Nat) : Option Nat := (m.readBytes a n).map bigEndian

/-- A read of garbage stops the machine (R18). -/
def orGarbage {α : Type} : Option α → Except Fault α
  | some x => .ok x
  | none   => .error .garbageRead

/-! ## Register writes -/

/-- W replaced. -/
def Block.setWindow (b : Block) (m : Memory) : Block := { b with window := m }

/-- START <- n (R15). -/
def Block.setStart (b : Block) (n : Nat) : Block := { b with start := BitVec.ofNat 9 n }

/-- LENGTH <- n (R16). -/
def Block.setLength (b : Block) (n : Nat) : Block := { b with length := BitVec.ofNat 9 n }

/-- SYNC <- v (R19). -/
def Block.setSync (b : Block) (v : Bool) : Block := { b with sync := v }

/-- SVALID <- v (R21). -/
def Block.setSvalid (b : Block) (v : Bool) : Block := { b with svalid := v }

/-- RESULT <- c (R22). -/
def Block.setResult (b : Block) (c : ResultCode) : Block := { b with result := c }

/-- SAMPLE[0..4] <- v (R23). -/
def Block.setSamples (b : Block) (v : Samples) : Block := { b with samples := v }

/-- The counters replaced (R24). -/
def Block.setCounters (b : Block) (c : Counters) : Block := { b with counters := c }

/-! ## The view and the invariants of a state -/

/-- The view, W[START] to W[START + LENGTH - 1], if every byte of it has a value (R18). -/
def Block.view? (b : Block) : Option (List Byte) := b.window.readBytes b.startN b.lengthN

/-- MemRead(START + k, 3) = 0xAAAAAA, or no value if one of the three bytes has none (R64). -/
def Block.preambleAt (b : Block) (k : Nat) : Option Bool :=
  (b.window.memRead (b.startN + k) Config.preambleLen).map (fun v => v == Config.preambleValue)

/-- START + LENGTH <= CAP (R17). -/
def Block.cursorsFit (b : Block) : Bool := decide (b.tail ≤ Config.cap)

/-- SYNC = 1 implies LENGTH >= 3 and MemRead(START, 3) = 0xAAAAAA (R19). -/
def Block.syncHolds (b : Block) : Bool :=
  !b.sync || (decide (Config.preambleLen ≤ b.lengthN) && b.preambleAt 0 == some true)

/-- The state has a meaning in the spec (R17, R19; 93_implementation_defined.md A14). -/
def Block.wellFormed (b : Block) : Bool := b.cursorsFit && b.syncHolds

/-! ## How a command ends -/

/-- finish(code): the writes made stand, RESULT <- code, the response is zext_32(code) (R77). -/
def finish (b : Block) (c : ResultCode) : Reply :=
  { block := b.setResult c, response := c.word, frame := none }

/-- finish(code) of a command that has emitted FrameOut(e) (R68, R77). -/
def finishWith (b : Block) (c : ResultCode) (e : Samples) : Reply :=
  { block := b.setResult c, response := c.word, frame := some e }

/-- raise C, the block's one abnormal end, where `b` is the block before the command: only RESULT and the counter of C
change, the response is zext_32(C), nothing is emitted, and there is no control transfer and no saved state (R78, R85). -/
def raise (b : Block) (c : ResultCode) : Reply :=
  { block := (b.setResult c).setCounters (b.counters.countResult c), response := c.word, frame := none }

/-- respond(v): the response is v and no state changes (R9, 44_register_access.md). -/
def respond (b : Block) (v : Word) : Reply := { block := b, response := v, frame := none }

/-! ## The helpers of the pseudocode -/

/-- clear_window() (R60). -/
def Block.clearWindow (b : Block) : Block := ((b.setStart 0).setLength 0).setSync false

/-- MemWrite(a, 1, v) (R9). -/
def Block.memWrite (b : Block) (a : Nat) (v : Byte) : Except Fault Block :=
  if a < Config.cap then .ok (b.setWindow (b.window.write a v)) else .error .outsideWindow

/-- compact_core(): every view byte is read, then all are written from index 0 on, then START <- 0 (R62). -/
def Block.compactCore (b : Block) : Except Fault Block :=
  match b.view? with
  | none   => .error .garbageRead
  | some v => .ok ((b.setWindow (b.window.writeBytes 0 v)).setStart 0)

/-- The end of an accepted WRITE: W[START + LENGTH] <- v, LENGTH <- LENGTH + 1 (R61). -/
def Block.appendByte (b : Block) (v : Byte) : Except Fault Block :=
  match b.memWrite b.tail v with
  | .error f => .error f
  | .ok b'   => .ok (b'.setLength (b.lengthN + 1))

/-- The while loop of scan_core from candidate offset k on; `fuel` bounds the candidates still to try (R64). -/
def Block.scanLoop (b : Block) : (fuel k : Nat) → Except Fault ScanResult
  | 0, k => .ok ⟨k, false⟩
  | fuel + 1, k =>
    if Config.preambleLen ≤ b.lengthN - k then
      match b.preambleAt k with
      | none       => .error .garbageRead
      | some true  => .ok ⟨k, true⟩
      | some false => b.scanLoop fuel (k + 1)
    else .ok ⟨k, false⟩

/-- The end of scan_core: the k bytes before the candidate are discarded and counted (R64). -/
def Block.discard (b : Block) (k : Nat) : Block :=
  ((b.setStart (b.startN + k)).setLength (b.lengthN - k)).setCounters (b.counters.addDiscard k)

/-- scan_core(): the block after it, and found (R64). -/
def Block.scanCore (b : Block) : Except Fault (Block × Bool) :=
  match b.scanLoop b.lengthN 0 with
  | .error f => .error f
  | .ok r    => .ok (b.discard r.offset, r.found)

/-- s[j] <- MemRead(START + 3 + 2j, 2) (R68). -/
def Block.sampleAt (b : Block) (j : Nat) : Option Sample :=
  (b.window.memRead (b.startN + 3 + 2 * j) 2).map (BitVec.ofNat 16)

/-- The five lanes of extract() (R68). -/
def Block.readSamples (b : Block) : Option Samples :=
  match b.sampleAt 0, b.sampleAt 1, b.sampleAt 2, b.sampleAt 3, b.sampleAt 4 with
  | some s0, some s1, some s2, some s3, some s4 => some ⟨s0, s1, s2, s3, s4⟩
  | _, _, _, _, _ => none

/-- The register writes of extract(): SAMPLE[0..4], SVALID <- 1, FRAME_COUNT + 1 (R68). -/
def Block.storeSamples (b : Block) (v : Samples) : Block :=
  ((b.setSamples v).setSvalid true).setCounters b.counters.addFrame

/-- extract(): the block after it, and the five values of the FrameOut event it emits (R68). -/
def Block.extract (b : Block) : Except Fault (Block × Samples) :=
  match b.readSamples with
  | none   => .error .garbageRead
  | some v => .ok (b.storeSamples v, v)

/-- FrameOut as the 80 bits of frame_data: s0 in bits 79:64 down to s4 in bits 15:0 (30_encoding.md R50). -/
def Samples.frameData (v : Samples) : BitVec 80 := v.s0 ++ v.s1 ++ v.s2 ++ v.s3 ++ v.s4

/-! ## A transaction on the ports -/

/-- The command's effects become visible together: the block, the response word, the FrameOut event (20_memory.md R41,
30_encoding.md R50). -/
def State.answer (s : State) (r : Reply) : State :=
  { s with block := r.block, responses := s.responses ++ [r.response], frames := s.frames ++ r.frame.toList }

/-- A command's outcome on the machine: its reply delivered, or the stop it ran into. -/
def State.transact (s : State) (r : Except Fault Reply) : Host.Outcome State Fault Refusal :=
  match r with
  | .error f => .fault f
  | .ok r    => .next (s.answer r)

/-- An illegal command word is executed as `raise ILLEGAL` (R55, R79). -/
def State.raiseIllegal (s : State) : State := s.answer (raise s.block .illegal)

/-- Reset, taken between two commands: every register to its reset value; nothing that has left a port is retracted,
and nothing is delivered or emitted (70_reset_and_hazards.md R89). -/
def State.takeReset (s : State) : State := { s with block := Block.reset }

/-- The host's next event has been taken. -/
def State.setPending (s : State) (es : List HostEvent) : State := { s with pending := es }

end Sys2Proof.Machine
end

