-- ==== Sys2Proof/Machine/Operands.lean ====
section
/-! DEFINITION. The operand forms of PT-FSYNC (30_encoding.md R54): the register index of RDREG (10_state.md R28) and the
view index of RDVIEW (44_register_access.md R75). The data byte of WRITE is used as it is. -/

namespace Sys2Proof.Machine

/-- The index of a register in the map (R28). -/
def regIndex : Reg → Byte
  | .status        => 0x00#8
  | .start         => 0x01#8
  | .length        => 0x02#8
  | .free          => 0x03#8
  | .param         => 0x04#8
  | .frameCount    => 0x05#8
  | .discardCount  => 0x06#8
  | .misalignCount => 0x07#8
  | .overflowCount => 0x08#8
  | .illegalCount  => 0x09#8
  | .room          => 0x0A#8
  | .sample0       => 0x10#8
  | .sample1       => 0x11#8
  | .sample2       => 0x12#8
  | .sample3       => 0x13#8
  | .sample4       => 0x14#8

/-- The register at an index, if the index is mapped (R28). -/
def regOfIndex (n : Byte) : Option Reg :=
  match n.toNat with
  | 0x00 => some .status
  | 0x01 => some .start
  | 0x02 => some .length
  | 0x03 => some .free
  | 0x04 => some .param
  | 0x05 => some .frameCount
  | 0x06 => some .discardCount
  | 0x07 => some .misalignCount
  | 0x08 => some .overflowCount
  | 0x09 => some .illegalCount
  | 0x0A => some .room
  | 0x10 => some .sample0
  | 0x11 => some .sample1
  | 0x12 => some .sample2
  | 0x13 => some .sample3
  | 0x14 => some .sample4
  | _    => none

/-- The 32-bit value of a register (R28, R74). -/
def Block.regValue (b : Block) : Reg → Word
  | .status        => b.status
  | .start         => b.start.setWidth 32
  | .length        => b.length.setWidth 32
  | .free          => BitVec.ofNat 32 b.free
  | .param         => Config.param
  | .frameCount    => b.counters.frame
  | .discardCount  => b.counters.discard
  | .misalignCount => b.counters.misalign
  | .overflowCount => b.counters.overflow
  | .illegalCount  => b.counters.illegal
  | .room          => BitVec.ofNat 32 b.room
  | .sample0       => b.samples.s0.setWidth 32
  | .sample1       => b.samples.s1.setWidth 32
  | .sample2       => b.samples.s2.setWidth 32
  | .sample3       => b.samples.s3.setWidth 32
  | .sample4       => b.samples.s4.setWidth 32

/-- What RDREG n responds: the register at n, or 0 at an unmapped index (R28, R74). -/
def Block.readReg (b : Block) (n : Byte) : Word :=
  match regOfIndex n with
  | some r => b.regValue r
  | none   => 0#32

/-- What RDVIEW i responds: view byte i zero-extended, or 0 outside the view (R75). -/
def Block.readView (b : Block) (i : Byte) : Except Fault Word :=
  if i.toNat < b.lengthN then
    match b.window.read (b.startN + i.toNat) with
    | none   => .error .garbageRead
    | some v => .ok (v.setWidth 32)
  else .ok 0#32

end Sys2Proof.Machine
end

