-- ==== Sys2Proof/Machine/Access.lean ====
section
/-! DEFINITION. RDREG and RDVIEW, the two commands that read and change nothing (44_register_access.md). -/

namespace Sys2Proof.Machine

/-- RDREG on the block (R74). -/
def rdregReply (n : Byte) (b : Block) : Except Fault Reply := .ok (respond b (b.readReg n))

/-- RDVIEW on the block (R75). -/
def rdviewReply (i : Byte) (b : Block) : Except Fault Reply :=
  match b.readView i with
  | .error f => .error f
  | .ok v    => .ok (respond b v)

/-- RDREG n (R74). -/
def execRdreg (n : Byte) (s : State) : Host.Outcome State Fault Refusal := s.transact (rdregReply n s.block)

/-- RDVIEW i (R75). -/
def execRdview (i : Byte) (s : State) : Host.Outcome State Fault Refusal := s.transact (rdviewReply i s.block)

end Sys2Proof.Machine
end

