-- ==== Sys2Proof/Machine/Cycle.lean ====
section
/-! DEFINITION. CYCLE, one acquisition cycle after the read (43_cycle.md). -/

namespace Sys2Proof.Machine

/-- The success end of CYCLE: extract, clear_window, finish(DECODED) (R71). -/
def cycleFrame (b : Block) : Except Fault Reply :=
  match b.extract with
  | .error f    => .error f
  | .ok (b', e) => .ok (finishWith b'.clearWindow .decoded e)

/-- CYCLE after a scan that found a preamble, SYNC already 1. The MISALIGNED branch is kept so that the transcription is
complete; it is not reachable (R71, R73). -/
def cycleSynced (b : Block) : Except Fault Reply :=
  if b.lengthN < Config.frameLen then .ok (finish b .incomplete)
  else
    match b.preambleAt 0 with
    | none       => .error .garbageRead
    | some false => .ok (finish (b.setCounters b.counters.addMisalign).clearWindow .misaligned)
    | some true  => cycleFrame b

/-- CYCLE on the block: SVALID <- 0, scan_core, then as the scan ended (R71). -/
def cycleReply (b : Block) : Except Fault Reply :=
  match (b.setSvalid false).scanCore with
  | .error f        => .error f
  | .ok (b', false) => .ok (finish (b'.setSync false) .notFound)
  | .ok (b', true)  => cycleSynced (b'.setSync true)

/-- CYCLE (R71). -/
def execCycle (s : State) : Host.Outcome State Fault Refusal := s.transact (cycleReply s.block)

end Sys2Proof.Machine
end

