-- ==== Sys2Proof/Machine/Parser.lean ====
section
/-! DEFINITION. DECODE, the fixed-length frame parser alone (42_decode.md). -/

namespace Sys2Proof.Machine

/-- The success end of DECODE: extract, then finish(DECODED); the window is left as it is (R69). -/
def decodeFrame (b : Block) : Except Fault Reply :=
  match b.extract with
  | .error f    => .error f
  | .ok (b', e) => .ok (finishWith b' .decoded e)

/-- DECODE on the block: SVALID <- 0, the length check, the preamble re-check, the extraction (R69). -/
def decodeReply (b : Block) : Except Fault Reply :=
  let b := b.setSvalid false
  if b.lengthN < Config.frameLen then .ok (finish b .incomplete)
  else
    match b.preambleAt 0 with
    | none       => .error .garbageRead
    | some false => .ok (finish (b.setCounters b.counters.addMisalign) .misaligned)
    | some true  => decodeFrame b

/-- DECODE (R69). -/
def execDecode (s : State) : Host.Outcome State Fault Refusal := s.transact (decodeReply s.block)

end Sys2Proof.Machine
end

