-- ==== Sys2Proof/Machine/Sync.lean ====
section
/-! DEFINITION. SCAN, the synchronizer alone (41_sync.md). -/

namespace Sys2Proof.Machine

/-- SCAN on the block: scan_core, SYNC <- found, FOUND or NOT_FOUND (R66). -/
def scanReply (b : Block) : Except Fault Reply :=
  match b.scanCore with
  | .error f        => .error f
  | .ok (b', true)  => .ok (finish (b'.setSync true) .found)
  | .ok (b', false) => .ok (finish (b'.setSync false) .notFound)

/-- SCAN (R66). -/
def execScan (s : State) : Host.Outcome State Fault Refusal := s.transact (scanReply s.block)

end Sys2Proof.Machine
end

