-- ==== Sys2Proof/Machine/WindowOps.lean ====
section
/-! DEFINITION. NOP, CLEAR, WRITE and COMPACT (40_window_ops.md). -/

namespace Sys2Proof.Machine

/-- NOP on the block (R59). -/
def nopReply (b : Block) : Except Fault Reply := .ok (finish b .ok)

/-- CLEAR on the block (R60). -/
def clearReply (b : Block) : Except Fault Reply := .ok (finish b.clearWindow .ok)

/-- The accepted end of WRITE: append, then finish(OK) (R61). -/
def writeAppend (v : Byte) (b : Block) : Except Fault Reply :=
  match b.appendByte v with
  | .error f => .error f
  | .ok b'   => .ok (finish b' .ok)

/-- WRITE on the block: overflow when the view fills the window, compaction when the tail has reached its end, then
the append (R61). -/
def writeReply (v : Byte) (b : Block) : Except Fault Reply :=
  if b.tail = Config.cap then
    if b.startN = 0 then .ok (raise b .overflow)
    else
      match b.compactCore with
      | .error f => .error f
      | .ok b'   => writeAppend v b'
  else writeAppend v b

/-- COMPACT on the block (R62). -/
def compactReply (b : Block) : Except Fault Reply :=
  match b.compactCore with
  | .error f => .error f
  | .ok b'   => .ok (finish b' .ok)

/-- NOP (R59). -/
def execNop (s : State) : Host.Outcome State Fault Refusal := s.transact (nopReply s.block)

/-- CLEAR (R60). -/
def execClear (s : State) : Host.Outcome State Fault Refusal := s.transact (clearReply s.block)

/-- WRITE b (R61). -/
def execWrite (v : Byte) (s : State) : Host.Outcome State Fault Refusal := s.transact (writeReply v s.block)

/-- COMPACT (R62). -/
def execCompact (s : State) : Host.Outcome State Fault Refusal := s.transact (compactReply s.block)

end Sys2Proof.Machine
end

