-- ==== Sys2Proof/Machine/Dispatch.lean ====
section
/-! DEFINITION. The meaning of every command, one arm per constructor of Instr. -/

namespace Sys2Proof.Machine

/-- What a legal command does (30_encoding.md R53). -/
def exec (i : Instr) (s : State) : Host.Outcome State Fault Refusal :=
  match i with
  -- 40_window_ops.md
  | .nop => Sys2Proof.Machine.execNop s
  | .clear => Sys2Proof.Machine.execClear s
  | .write data => Sys2Proof.Machine.execWrite data s
  -- 41_sync.md
  | .scan => Sys2Proof.Machine.execScan s
  -- 42_decode.md
  | .decode => Sys2Proof.Machine.execDecode s
  -- 43_cycle.md
  | .cycle => Sys2Proof.Machine.execCycle s
  -- 40_window_ops.md
  | .compact => Sys2Proof.Machine.execCompact s
  -- 44_register_access.md
  | .rdreg index => Sys2Proof.Machine.execRdreg index s
  | .rdview index => Sys2Proof.Machine.execRdview index s

end Sys2Proof.Machine
end

