-- ==== Sys2Proof/Machine/Step.lean ====
section
/-! DEFINITION. One step: the host's next event is taken between two commands (20_memory.md R45; 30_encoding.md R50;
70_reset_and_hazards.md R89, R93), and the place where a command word waits for its step. -/

namespace Sys2Proof.Machine

/-- A command word on the port. In a state with no meaning the model refuses (R17; 93_implementation_defined.md A14).
Otherwise the legality check comes first (R55): a legal word runs, an illegal one raises ILLEGAL. -/
def runWord (w : CmdWord) (s : State) : Host.Outcome State Fault Refusal :=
  if s.block.wellFormed then
    match decode w with
    | .ok i    => exec i s
    | .error _ => .next s.raiseIllegal
  else .refused .illFormedState

/-- One step. While the host issues nothing the block's state does not change (70_reset_and_hazards.md R99). -/
def step (s : State) : Host.Outcome State Fault Refusal :=
  match s.pending with
  | []                 => .next s
  | .reset :: es       => .next (s.setPending es).takeReset
  | .command w :: es   => runWord w (s.setPending es)

/-- The state in which the host's next event is the command word of `nbits` bits `w` (log entry 1). -/
def State.withFetchWord (s : State) (nbits w : Nat) : State :=
  s.setPending (.command (tableWord nbits w) :: s.pending)

end Sys2Proof.Machine
end

