-- ==== Sys2Proof/Machine/Script.lean ====
section
/-! DEFINITION. The command script (30_encoding.md R57, R58): what a line expands to, and how a line of text is read. It is
the host's side of the port; no step of the machine uses it. -/

namespace Sys2Proof.Machine

/-- FEED: one WRITE per byte, in that order (R58). -/
def feedWords (bs : List Byte) : List CmdWord := bs.map fun b => encode (.write b)

/-- The command words a line expands to (R57, R58). -/
def scriptWords : ScriptLine → List CmdWord
  | .blank     => []
  | .command i => [encode i]
  | .word w    => [w]
  | .feed bs   => feedWords bs
  | .feedN n b => List.replicate n (encode (.write b))
  | .poll bs   => feedWords bs ++ [encode .cycle]
  | .rdStatus  => [encode (.rdreg (regIndex .status))]
  | .rdSamples =>
    [encode (.rdreg (regIndex .sample0)), encode (.rdreg (regIndex .sample1)), encode (.rdreg (regIndex .sample2)),
     encode (.rdreg (regIndex .sample3)), encode (.rdreg (regIndex .sample4))]

/-- The host's events for a whole script. -/
def scriptEvents (ls : List ScriptLine) : List HostEvent := (ls.flatMap scriptWords).map .command

/-! ## Reading text -/

/-- The value of a hexadecimal digit. -/
def digitValue (c : Char) : Option Nat :=
  let n := c.toNat
  if 48 ≤ n && n ≤ 57 then some (n - 48)
  else if 65 ≤ n && n ≤ 70 then some (n - 55)
  else if 97 ≤ n && n ≤ 102 then some (n - 87)
  else none

/-- The digits of a number in a base of at most 16, most significant first. -/
def digitsValue (base : Nat) : Nat → List Char → Option Nat
  | acc, [] => some acc
  | acc, c :: cs =>
    match digitValue c with
    | some d => if d < base then digitsValue base (acc * base + d) cs else none
    | none   => none

/-- A number: decimal, or hexadecimal with `0x` (R57 says so of the byte of WRITE; for every other number of a script, for
leading zeros and for the case of the digits it is the model's choice, log entry 13). -/
def numberValue : List Char → Option Nat
  | '0' :: 'x' :: c :: cs => digitsValue 16 0 (c :: cs)
  | c :: cs => digitsValue 10 0 (c :: cs)
  | [] => none

/-- A number of 8 bits. -/
def byteValue (t : List Char) : Option Byte :=
  match numberValue t with
  | some n => if n < 256 then some (BitVec.ofNat 8 n) else none
  | none   => none

/-- The operand of `.word`, a number of 16 bits. DESIGN CHOICE (log entry 13): R57 shows `.word` only with four hexadecimal
digits, `0xNNNN`; a decimal number and any other count of hexadecimal digits are read here too, if below 65536. -/
def wordValue (t : List Char) : Option CmdWord :=
  match numberValue t with
  | some n => if n < 65536 then some (BitVec.ofNat 16 n) else none
  | none   => none

/-- All of a list of bytes. -/
def byteValues : List (List Char) → Option (List Byte)
  | [] => some []
  | t :: ts =>
    match byteValue t, byteValues ts with
    | some b, some bs => some (b :: bs)
    | _, _ => none

/-- The spelling of each register in a script (R57). -/
def regNames : List (List Char × Reg) :=
  [("STATUS".toList, .status), ("START".toList, .start), ("LENGTH".toList, .length), ("FREE".toList, .free),
   ("PARAM".toList, .param), ("FRAME_COUNT".toList, .frameCount), ("DISCARD_COUNT".toList, .discardCount),
   ("MISALIGN_COUNT".toList, .misalignCount), ("OVERFLOW_COUNT".toList, .overflowCount),
   ("ILLEGAL_COUNT".toList, .illegalCount), ("ROOM".toList, .room), ("SAMPLE0".toList, .sample0),
   ("SAMPLE1".toList, .sample1), ("SAMPLE2".toList, .sample2), ("SAMPLE3".toList, .sample3),
   ("SAMPLE4".toList, .sample4)]

/-- The operand of RDREG: a register's name, or an index (R57). -/
def regOperand (t : List Char) : Option Byte :=
  match regNames.find? (fun p => p.1 == t) with
  | some p => some (regIndex p.2)
  | none   => byteValue t

/-- The words of a line, split at blanks, tabs and commas, up to the comment sign; `acc` is the word under way, last
letter first (R57). -/
def splitWords : List Char → List Char → List (List Char)
  | acc, [] => if acc.isEmpty then [] else [acc.reverse]
  | acc, c :: cs =>
    if c == ';' then (if acc.isEmpty then [] else [acc.reverse])
    else if c == ' ' || c == '\t' || c == ',' then
      (if acc.isEmpty then splitWords [] cs else acc.reverse :: splitWords [] cs)
    else splitWords (c :: acc) cs

/-- The mnemonics without an operand, by spelling (R53, R57, R58). -/
def plainLines : List (List Char × ScriptLine) :=
  [("NOP".toList, .command .nop), ("CLEAR".toList, .command .clear), ("SCAN".toList, .command .scan),
   ("DECODE".toList, .command .decode), ("CYCLE".toList, .command .cycle), ("COMPACT".toList, .command .compact),
   ("RDSTATUS".toList, .rdStatus), ("RDSAMPLES".toList, .rdSamples)]

/-- A mnemonic that stands alone. -/
def bareLine (m : List Char) : Option ScriptLine :=
  (plainLines.find? (fun p => p.1 == m)).map Prod.snd

/-- A line whose mnemonic takes operands. -/
def operandLine (m : List Char) (ts : List (List Char)) : Option ScriptLine :=
  if m == "FEED".toList then (byteValues ts).map .feed
  else if m == "POLL".toList then (byteValues ts).map .poll
  else
    match ts with
    | [t] =>
      if m == "WRITE".toList then (byteValue t).map (fun b => .command (.write b))
      else if m == "RDREG".toList then (regOperand t).map (fun n => .command (.rdreg n))
      else if m == "RDVIEW".toList then (byteValue t).map (fun i => .command (.rdview i))
      else if m == ".word".toList then (wordValue t).map .word
      else none
    | [n, t] =>
      if m == "FEEDN".toList then
        match numberValue n, byteValue t with
        | some k, some b => some (.feedN k b)
        | _, _ => none
      else none
    | _ => none

/-- One line of a script, or nothing if it is not one (R57, R58). -/
def parseLine (line : String) : Option ScriptLine :=
  match splitWords [] line.toList with
  | [] => some .blank
  | [m] =>
    match bareLine m with
    | some l => some l
    | none   => operandLine m []
  | m :: ts => operandLine m ts

end Sys2Proof.Machine
end

