-- ==== Sys2Proof/Safety.lean ====
section
/-! DEFINITION. The terms that claims are stated in: the invariant of the machine, what a scan and a frame are on the
list of view bytes, how a command completes, and runs of several commands. Nothing here is used by the machine. -/

namespace Sys2Proof.Machine

/-! ## Invariants -/

/-- What holds of the block in every state a run from reset reaches: the window in canonical form, START + LENGTH <= CAP
(R17), a value for every view byte (R18), and the SYNC invariant (R19). -/
abbrev Block.Inv (b : Block) : Prop :=
  b.window.wf = true ∧ b.cursorsFit = true ∧ b.view?.isSome = true ∧ b.syncHolds = true

/-- The invariant of the machine: the block's, and, while SVALID = 1, the SAMPLE registers hold the frame that the
latest FrameOut event carried (R21, R26). -/
abbrev State.Inv (s : State) : Prop :=
  s.block.Inv ∧ (s.block.svalid = true → s.frames.getLast? = some s.block.samples)

/-! ## Views as lists of bytes -/

/-- The three bytes from offset `j` of a view are the preamble AA AA AA (R5, R64). -/
def hasPreamble (v : List Byte) (j : Nat) : Bool :=
  v[j]? == some 0xAA#8 && v[j + 1]? == some 0xAA#8 && v[j + 2]? == some 0xAA#8

/-- The closed form of a scan of a view (R65): found at the least offset with the preamble; or, if there is none, not
found with all but the last two bytes discarded (none where there are no more than two). -/
def ScanOutcome (v : List Byte) (k : Nat) (found : Bool) : Prop :=
  if found then hasPreamble v k = true ∧ ∀ j < k, hasPreamble v j = false
  else k = v.length - 2 ∧ ∀ j, hasPreamble v j = false

/-- The two bytes from offset `j`, the first one more significant (R37). -/
def bytePair (v : List Byte) (j : Nat) : Sample := v.getD j 0#8 ++ v.getD (j + 1) 0#8

/-- The five samples of a frame that starts the view: bytes 3-4, 5-6, 7-8, 9-10 and 11-12 (00_scope.md R6). -/
def frameSamples (v : List Byte) : Samples :=
  ⟨bytePair v 3, bytePair v 5, bytePair v 7, bytePair v 9, bytePair v 11⟩

/-! ## How a command completes -/

/-- The command completes from `s`: the block becomes `b`, the response is `r`, the FrameOut events emitted are `ev`,
and nothing else of the machine changes. -/
def Ends (i : Instr) (s : State) (b : Block) (r : Word) (ev : List Samples) : Prop :=
  exec i s = .next { s with block := b, responses := s.responses ++ [r], frames := s.frames ++ ev }

/-- The word is one of the two commands that only read, RDREG and RDVIEW (R53). -/
def isReadWord (w : CmdWord) : Bool := w &&& 0x00FF#16 == 0x0007#16 || w &&& 0x00FF#16 == 0x0008#16

/-- The observable state of two blocks agrees, wherever in the window their views lie (R18, R63). -/
def SameView (a b : Block) : Prop :=
  a.view? = b.view? ∧ a.sync = b.sync ∧ a.svalid = b.svalid ∧ a.result = b.result ∧ a.samples = b.samples ∧
    a.counters = b.counters

/-! ## Runs -/

/-- Commands one after the other, each from the state the one before left (R45). -/
def execAll : List Instr → State → Host.Outcome State Fault Refusal
  | [], s => .next s
  | i :: is, s =>
    match exec i s with
    | .next t    => execAll is t
    | .fault f   => .fault f
    | .refused r => .refused r

/-- One POLL: deliver the bytes of a chunk, then CYCLE (30_encoding.md R58). -/
def pollCommands (chunk : List Byte) : List Instr := chunk.map .write ++ [.cycle]

/-- The machine just reset, with everything the host will do. -/
def bootedWith (es : List HostEvent) : State := State.reset.setPending es

end Sys2Proof.Machine
end

