-- ==== Sys2Proof/Certificates/Slice0/Obligations.lean ====
section
/-! DEFINITION. The statements about the machine, for the provers. Each docstring names the rule of spec/ it formalises. -/

open Sys2Proof Sys2Proof.Machine

/-! ## Encoding -/

/-- Decode and encode agree in both directions (30_encoding.md R52 to R54): a word decodes to a command exactly when it
is that command's word, so no bit of an encoding is dropped and no second word has the meaning. -/
def Obligations.DecodeAndEncodeAgreeBothWays : Prop :=
  ∀ (w : CmdWord) (i : Instr), decode w = .ok i ↔ w = encode i

/-- R53: "a word is legal exactly when it matches one row under its mask". A legal word's one matching row is its
command's, and a word that matches any row is legal. -/
def Obligations.LegalWordMatchesExactlyOneRow : Prop :=
  ∀ w : CmdWord,
    (∀ i, decode w = .ok i → rowOf i ∈ opcodeTable ∧ (rowOf i).covers w = true ∧
      ∀ r ∈ opcodeTable, r.covers w = true → r = rowOf i) ∧
    ((∃ r ∈ opcodeTable, r.covers w = true) → ∃ i, decode w = .ok i)

/-- R55 and R79: which words are illegal, how many are legal, and that an illegal word only raises ILLEGAL: RESULT and
ILLEGAL_COUNT change, the response is 7, and nothing else of the machine does. -/
def Obligations.IllegalWordsRaiseIllegal : Prop :=
  (∀ w : CmdWord, isLegal w = false ↔
    (9 ≤ (w.extractLsb' 0 4).toNat ∨ w.extractLsb' 4 4 ≠ 0#4 ∨
      ((w.extractLsb' 0 4).toNat ∈ [0, 1, 3, 4, 5, 6] ∧ w.extractLsb' 8 8 ≠ 0#8))) ∧
  (Finset.univ.filter (fun w : CmdWord => isLegal w = true)).card = 774 ∧
  ∀ (s : State) (w : CmdWord) (es : List HostEvent),
    s.block.wellFormed = true → s.pending = .command w :: es → isLegal w = false →
      step s = .next { s with
        pending := es, responses := s.responses ++ [7#32],
        block := { s.block with
          result := .illegal,
          counters := { s.block.counters with illegal := s.block.counters.illegal + 1#32 } } }

/-- The words R57 and 95_test_vectors.md write out decode to the commands they stand for. -/
def Obligations.SpecWordsDecode : Prop :=
  decode 0x0000#16 = .ok .nop ∧ decode 0x0001#16 = .ok .clear ∧ decode 0xAA02#16 = .ok (.write 0xAA#8) ∧
  decode 0x0003#16 = .ok .scan ∧ decode 0x0004#16 = .ok .decode ∧ decode 0x0005#16 = .ok .cycle ∧
  decode 0x0006#16 = .ok .compact ∧ decode 0x1207#16 = .ok (.rdreg 0x12#8) ∧ decode 0x0308#16 = .ok (.rdview 3#8) ∧
  decode 0x0009#16 = .error (.reservedOpcode 9#4) ∧ decode 0x0012#16 = .error (.reservedField 1#4) ∧
  decode 0x0100#16 = .error (.unusedImmediate 1#8)

/-- R57 and R58: the expansions of the pseudo-commands, every one of them made of legal words; only `.word` can put an
illegal word on the port. -/
def Obligations.ScriptLinesExpandToLegalWords : Prop :=
  (∀ (bs : List Byte) (n : Nat) (b : Byte),
    scriptWords (.feed bs) = bs.map (fun x => x ++ 0x02#8) ∧
    scriptWords (.feedN n b) = List.replicate n (b ++ 0x02#8) ∧
    scriptWords (.poll bs) = bs.map (fun x => x ++ 0x02#8) ++ [0x0005#16] ∧
    scriptWords .rdStatus = [0x0007#16] ∧
    scriptWords .rdSamples = [0x1007#16, 0x1107#16, 0x1207#16, 0x1307#16, 0x1407#16]) ∧
  ∀ l : ScriptLine, (∀ w, l ≠ .word w) → ∀ w ∈ scriptWords l, isLegal w = true

/-! ## The step -/

/-- A step runs the decoded command (30_encoding.md R50; 20_memory.md R45): when the host's next event is a legal
command word, the step is exec of its command with that event taken. -/
def Obligations.StepRunsTheDecodedCommand : Prop :=
  ∀ (s : State) (w : CmdWord) (es : List HostEvent) (i : Instr),
    s.block.wellFormed = true → s.pending = .command w :: es → decode w = .ok i →
      step s = exec i { s with pending := es }

/-- Placing a table word where the next step takes its command runs exactly the instruction the decoder reads from it. -/
def Obligations.PlacedWordRunsNext : Prop :=
  ∀ (s : State) (w : Nat) (i : Instr), s.block.wellFormed = true → w < 65536 → decodeTableWord 16 w = some i →
    encode i = BitVec.ofNat 16 w ∧ step (s.withFetchWord 16 w) = exec i s

/-- While the host issues nothing, a step changes nothing (70_reset_and_hazards.md R99). -/
def Obligations.SilentHostChangesNothing : Prop :=
  ∀ s : State, s.pending = [] → step s = .next s

/-- A command issued in a state that breaks START + LENGTH <= CAP or the SYNC invariant is refused
(93_implementation_defined.md A14). -/
def Obligations.IllFormedStateIsRefused : Prop :=
  ∀ (s : State) (w : CmdWord) (es : List HostEvent), s.pending = .command w :: es →
    (256 < s.block.start.toNat + s.block.length.toNat ∨
      (s.block.sync = true ∧ (s.block.length.toNat < 3 ∨ s.block.preambleAt 0 ≠ some true))) →
    step s = .refused .illFormedState

/-- R30: a reset, whatever the state was, gives every register its reset value and empties the view, and RDREG then
answers the reset value of every index. The rule leaves every window byte unspecified, so the statement says nothing of
them. -/
def Obligations.ResetGivesEveryRegisterItsResetValue : Prop :=
  ∀ (s : State) (es : List HostEvent), s.pending = .reset :: es →
    ∃ t, step s = .next t ∧
      t.block.start = 0#9 ∧ t.block.length = 0#9 ∧ t.block.sync = false ∧ t.block.svalid = false ∧
      t.block.result = .ok ∧ t.block.samples = ⟨0#16, 0#16, 0#16, 0#16, 0#16⟩ ∧
      t.block.counters = ⟨0#32, 0#32, 0#32, 0#32, 0#32⟩ ∧
      t.block.syncState = .seeking ∧ t.block.free = 256 ∧ t.block.room = 256 ∧ t.block.status = 0#32 ∧
      t.block.view? = some [] ∧
      (∀ n : Byte, t.block.readReg n =
        if n = 0x03#8 ∨ n = 0x0A#8 then 256#32 else if n = 0x04#8 then 0xAA530100#32 else 0#32)

/-- What a reset does at the ports (70_reset_and_hazards.md R89): no FrameOut event is retracted or emitted. That it gives
no response word, and that it leaves no window byte with a value, are the model's own choices (log entries 6 and 2). -/
def Obligations.ResetRetractsAndEmitsNothing : Prop :=
  ∀ (s : State) (es : List HostEvent), s.pending = .reset :: es →
    ∃ t, step s = .next t ∧ t.frames = s.frames ∧ t.responses = s.responses ∧ t.pending = es ∧
      t.block = State.reset.block ∧ ∀ a, t.block.window.read a = none

/-! ## Invariants of the whole machine -/

/-- The machine just reset meets the invariant, whatever the host will do (R17, R18, R19, R30). -/
def Obligations.ResetMeetsTheInvariant : Prop := ∀ es : List HostEvent, (bootedWith es).Inv

/-- Every step keeps the invariant: the window canonical, START + LENGTH <= CAP (R17), every view byte defined (R18), the
SYNC invariant (R19), and SVALID = 1 only with the samples of the latest FrameOut event (R21, R26). -/
def Obligations.EveryStepKeepsTheInvariant : Prop :=
  ∀ s t : State, s.Inv → step s = .next t → t.Inv

/-- R17: START + LENGTH <= CAP in every state the block can reach, and every command preserves it. The first part says
more: from reset, for every sequence of host events, every number of steps answers a next state, so no run faults, is
refused or hangs (R85, R98, R99). -/
def Obligations.EveryRunFromResetGoesOnAndStaysInTheWindow : Prop :=
  (∀ (es : List HostEvent) (n : Nat),
    ∃ t, Host.Core.run Sys2Proof.core n (bootedWith es) = .next t ∧ t.block.start.toNat + t.block.length.toNat ≤ 256) ∧
  ∀ (i : Instr) (s t : State), s.Inv → exec i s = .next t → t.block.start.toNat + t.block.length.toNat ≤ 256

/-- From every state that meets the invariant every step answers a next state: no fault, no refusal (60_exceptions.md
R85; 70_reset_and_hazards.md R98, R99). -/
def Obligations.NoStepStopsInAnInvariantState : Prop := ∀ s : State, s.Inv → ∃ t, step s = .next t

/-- START never leaves 0 to 254 (10_state.md R15): every step from a state that meets the invariant keeps that range. -/
def Obligations.StartStaysInZeroTo254 : Prop :=
  ∀ s t : State, s.Inv → s.block.start.toNat ≤ 254 → step s = .next t → t.block.start.toNat ≤ 254

/-- R19: who writes SYNC and to what, and the SYNC invariant after every command. -/
def Obligations.SyncFlagRule : Prop :=
  ∀ (i : Instr) (s t : State) (v : List Byte) (k : Nat) (found : Bool),
    s.Inv → s.block.view? = some v → ScanOutcome v k found → exec i s = .next t →
      (t.block.sync =
        match i with
        | .clear => false
        | .scan  => found
        | .cycle => found && decide (v.length - k < 13)
        | .nop | .write _ | .decode | .compact | .rdreg _ | .rdview _ => s.block.sync) ∧
      (t.block.sync = true → 3 ≤ t.block.length.toNat ∧ t.block.window.memRead t.block.start.toNat 3 = some 0xAAAAAA)

/-- R21: DECODE and CYCLE leave SVALID = 1 if and only if they end with DECODED; every other command word, legal or not,
leaves SVALID unchanged; and SVALID = 1 says that SAMPLE holds the latest frame that was emitted. -/
def Obligations.SvalidFlagRule : Prop :=
  ∀ (s t : State) (w : CmdWord) (es : List HostEvent),
    s.Inv → s.pending = .command w :: es → step s = .next t →
      (w = 0x0004#16 ∨ w = 0x0005#16 → (t.block.svalid = true ↔ t.block.result = .decoded)) ∧
      (w ≠ 0x0004#16 ∧ w ≠ 0x0005#16 → t.block.svalid = s.block.svalid) ∧
      (t.block.svalid = true → t.frames.getLast? = some t.block.samples)

/-- R22 and R51: every command word but a legal RDREG or RDVIEW writes RESULT and answers zext_32 of the code it wrote;
RDREG answers the register, RDVIEW the zero-extended view byte or 0, and neither writes RESULT. -/
def Obligations.ResultAndResponseRule : Prop :=
  ∀ (s t : State) (w : CmdWord) (es : List HostEvent) (v : List Byte),
    s.Inv → s.pending = .command w :: es → s.block.view? = some v → step s = .next t →
      (isReadWord w = false → t.responses = s.responses ++ [t.block.result.code.setWidth 32] ∧
        (t.block.result = .illegal ↔ isLegal w = false)) ∧
      (w &&& 0x00FF#16 = 0x0007#16 → t.block.result = s.block.result ∧
        t.responses = s.responses ++ [s.block.readReg (w.extractLsb' 8 8)]) ∧
      (w &&& 0x00FF#16 = 0x0008#16 → t.block.result = s.block.result ∧
        t.responses = s.responses ++ [(v.getD (w.extractLsb' 8 8).toNat 0#8).setWidth 32])

/-- R23 and R26: the samples are written, all five, and one FrameOut event with the same five values is emitted, exactly
when a DECODE or CYCLE ends with DECODED; sample j is bytes 3 + 2j and 4 + 2j of the frame, at the view's start for
DECODE and at the scan offset for CYCLE, with all 16 bits. At every other command the samples keep their values and the
port carries nothing. -/
def Obligations.SamplesAndFrameOutRule : Prop :=
  ∀ (i : Instr) (s t : State) (v : List Byte) (k : Nat) (found : Bool),
    s.Inv → s.block.view? = some v → ScanOutcome v k found → exec i s = .next t →
      if (i = .decode ∨ i = .cycle) ∧ t.block.result = .decoded then
        t.block.samples = frameSamples (if i = .decode then v else v.drop k) ∧
        t.frames = s.frames ++ [t.block.samples]
      else t.block.samples = s.block.samples ∧ t.frames = s.frames

/-- R24: what increments each counter and by how much, modulo 2^32, for every command word, legal or not; and a reset
clears all five. -/
def Obligations.EventCounterRule : Prop :=
  (∀ (s t : State) (es : List HostEvent), s.pending = .reset :: es → step s = .next t →
    t.block.counters = ⟨0#32, 0#32, 0#32, 0#32, 0#32⟩) ∧
  ∀ (s t : State) (w : CmdWord) (es : List HostEvent) (v : List Byte) (k : Nat) (found : Bool),
    s.Inv → s.pending = .command w :: es → s.block.view? = some v → ScanOutcome v k found → step s = .next t →
      t.block.counters =
        { frame    := s.block.counters.frame +
            (if isReadWord w = false ∧ t.block.result = .decoded then 1#32 else 0#32),
          discard  := s.block.counters.discard +
            (if w = 0x0003#16 ∨ w = 0x0005#16 then BitVec.ofNat 32 k else 0#32),
          misalign := s.block.counters.misalign +
            (if isReadWord w = false ∧ t.block.result = .misaligned then 1#32 else 0#32),
          overflow := s.block.counters.overflow +
            (if w &&& 0x00FF#16 = 0x0002#16 ∧ t.block.result = .overflow then 1#32 else 0#32),
          illegal  := s.block.counters.illegal +
            (if isReadWord w = false ∧ t.block.result = .illegal then 1#32 else 0#32) }

/-- R83: the order of the checks, the first that holds deciding the one result code of a command. -/
def Obligations.FirstCheckThatHoldsDecides : Prop :=
  ∀ (s t : State) (w : CmdWord) (es : List HostEvent) (v : List Byte) (k : Nat) (found : Bool),
    s.Inv → s.pending = .command w :: es → s.block.view? = some v → ScanOutcome v k found → step s = .next t →
      match decode w with
      | .error _      => t.block.result = .illegal
      | .ok (.write _) => t.block.result = if v.length = 256 then .overflow else .ok
      | .ok .scan     => t.block.result = if found then .found else .notFound
      | .ok .decode   => t.block.result =
          if v.length < 13 then .incomplete else if hasPreamble v 0 then .decoded else .misaligned
      | .ok .cycle    => t.block.result =
          if found then (if v.length - k < 13 then .incomplete else .decoded) else .notFound
      | .ok .nop      => t.block.result = .ok
      | .ok .clear    => t.block.result = .ok
      | .ok .compact  => t.block.result = .ok
      | .ok (.rdreg _)  => t.block.result = s.block.result
      | .ok (.rdview _) => t.block.result = s.block.result

/-! ## Memory -/

/-- R37: MemRead(a, n) is the sum of W[a+i] * 256^(n-1-i), the byte at the lower index the more significant; so two bytes
read as {W[a], W[a+1]}, and three as 0xAAAAAA exactly when each is 0xAA. -/
def Obligations.MemoryReadsAreBigEndian : Prop :=
  (∀ (m : Memory) (a n : Nat) (f : Nat → Byte), (∀ i < n, m.read (a + i) = some (f i)) →
    m.memRead a n = some (∑ i ∈ Finset.range n, (f i).toNat * 256 ^ (n - 1 - i))) ∧
  (∀ (m : Memory) (a : Nat) (h l : Byte), m.read a = some h → m.read (a + 1) = some l →
    m.memRead a 2 = some (h ++ l : BitVec 16).toNat) ∧
  ∀ (m : Memory) (a : Nat) (x y z : Byte), m.read a = some x → m.read (a + 1) = some y → m.read (a + 2) = some z →
    (m.memRead a 3 = some 0xAAAAAA ↔ x = 0xAA#8 ∧ y = 0xAA#8 ∧ z = 0xAA#8)

/-- The frame of the commands that store nothing (20_memory.md R34): NOP, CLEAR, SCAN, DECODE, CYCLE, RDREG and RDVIEW
leave every byte of the window as it was. -/
def Obligations.NonStoringCommandsKeepEveryByte : Prop :=
  ∀ (i : Instr) (s t : State), i ∈ [.nop, .clear, .scan, .decode, .cycle] ∨ (∃ n, i = .rdreg n ∨ i = .rdview n) →
    exec i s = .next t → ∀ a, t.block.window.read a = s.block.window.read a

/-- The frame of the commands that store (20_memory.md R34, R35): COMPACT stores the view at indices 0 to LENGTH - 1.
WRITE, with the tail before the end of the window, stores one byte at the tail; with the tail at the end and START > 0 it
compacts and then stores one byte at the compacted block's tail; with START = 0 it stores nothing. Every other byte reads
as before. -/
def Obligations.StoringCommandsKeepEveryOtherByte : Prop :=
  ∀ s t : State, s.Inv →
    (exec .compact s = .next t →
      (∀ a, a < s.block.lengthN → t.block.window.read a = s.block.window.read (s.block.startN + a)) ∧
      ∀ a, ¬ a < s.block.lengthN → t.block.window.read a = s.block.window.read a) ∧
    ∀ x : Byte, exec (.write x) s = .next t →
      (s.block.tail < 256 → t.block.window.read s.block.tail = some x ∧
        ∀ a, a ≠ s.block.tail → t.block.window.read a = s.block.window.read a) ∧
      (s.block.tail = 256 → s.block.startN ≠ 0 → ∀ c, s.block.compactCore = .ok c →
        t.block.window.read c.tail = some x ∧
        (∀ a, a < s.block.lengthN → t.block.window.read a = s.block.window.read (s.block.startN + a)) ∧
        ∀ a, ¬ a < s.block.lengthN → a ≠ c.tail → t.block.window.read a = s.block.window.read a) ∧
      (s.block.tail = 256 → s.block.startN = 0 → ∀ a, t.block.window.read a = s.block.window.read a)

/-- R42: RDREG and RDVIEW change no state and repeat their value; NOP, CLEAR, COMPACT and SCAN are idempotent (SCAN's
second application adds 0 to DISCARD_COUNT). WRITE, DECODE and CYCLE are not: each accepted WRITE appends, and each
DECODED result increments FRAME_COUNT and emits an event. -/
def Obligations.ReadsHaveNoSideEffectAndIdempotence : Prop :=
  ∀ s t u : State, s.Inv →
    (∀ n : Byte, ∀ i, i = .rdreg n ∨ i = .rdview n → exec i s = .next t → exec i t = .next u →
      t.block = s.block ∧ t.frames = s.frames ∧ t.pending = s.pending ∧ u.block = s.block ∧
      t.responses.getLast? = u.responses.getLast?) ∧
    (∀ i, i ∈ [.nop, .clear, .compact, .scan] → exec i s = .next t → exec i t = .next u →
      u.block = t.block ∧ u.frames = t.frames) ∧
    (∀ (x : Byte) (v : List Byte), s.block.view? = some v → v.length < 255 →
      exec (.write x) s = .next t → exec (.write x) t = .next u → u.block.view? = some (v ++ [x, x])) ∧
    (∀ i, i = .decode ∨ i = .cycle → exec i s = .next t → t.block.result = .decoded →
      t.block.counters.frame = s.block.counters.frame + 1#32 ∧ t.frames = s.frames ++ [t.block.samples])

/-! ## Window cursor management -/

/-- R59: NOP completes, clears RESULT to OK and changes nothing else. -/
def Obligations.NopWritesOnlyResult : Prop :=
  encode .nop = 0x0000#16 ∧ ∀ s : State, Ends .nop s { s.block with result := .ok } 0#32 []

/-- R60: CLEAR completes, empties the window and clears SYNC, and keeps every byte, sample, SVALID and counter. -/
def Obligations.ClearEmptiesTheWindow : Prop :=
  encode .clear = 0x0001#16 ∧
  ∀ s : State, Ends .clear s { s.block with start := 0#9, length := 0#9, sync := false, result := .ok } 0#32 []

/-- R61: WRITE completes. With LENGTH = CAP the byte is dropped with OVERFLOW. With the tail before the end of the window
the byte goes there. Otherwise the view moves to index 0 first. -/
def Obligations.WriteAppendsCompactsOrOverflows : Prop :=
  ∀ (s : State) (x : Byte), s.Inv →
    encode (.write x) = x ++ 0x02#8 ∧
    (s.block.length.toNat = 256 →
      Ends (.write x) s { s.block with
        result := .overflow,
        counters := { s.block.counters with overflow := s.block.counters.overflow + 1#32 } } 6#32 []) ∧
    (s.block.start.toNat + s.block.length.toNat < 256 →
      ∃ m : Memory,
        Ends (.write x) s { s.block with window := m, length := s.block.length + 1#9, result := .ok } 0#32 [] ∧
        m.wf = true ∧
        ∀ a, m.read a = if a = s.block.start.toNat + s.block.length.toNat then some x else s.block.window.read a) ∧
    (s.block.start.toNat + s.block.length.toNat = 256 → 0 < s.block.start.toNat →
      ∃ m : Memory,
        Ends (.write x) s
          { s.block with window := m, start := 0#9, length := s.block.length + 1#9, result := .ok } 0#32 [] ∧
        m.wf = true ∧
        ∀ a, m.read a =
          if a = s.block.length.toNat then some x
          else if a < s.block.length.toNat then s.block.window.read (s.block.start.toNat + a)
          else s.block.window.read a)

/-- R62: COMPACT completes, moves the view to index 0 as if every byte were read before any is written, keeps the bytes
from LENGTH on, and changes nothing but the window, START and RESULT. -/
def Obligations.CompactMovesTheViewToZero : Prop :=
  encode .compact = 0x0006#16 ∧
  ∀ s : State, s.Inv →
    ∃ m : Memory,
      Ends .compact s { s.block with window := m, start := 0#9, result := .ok } 0#32 [] ∧ m.wf = true ∧
      (∀ a, m.read a =
        if a < s.block.length.toNat then s.block.window.read (s.block.start.toNat + a) else s.block.window.read a) ∧
      (s.block.start = 0#9 → m = s.block.window)

/-- The laws (a) to (f) of 40_window_ops.md R63: what NOP, CLEAR, WRITE and COMPACT do to the view, and what they keep. -/
def Obligations.WindowCommandLaws : Prop :=
  ∀ (s : State) (v : List Byte), s.Inv → s.block.view? = some v →
    (∃ t, exec .compact s = .next t ∧ t.block.view? = some v ∧ t.block.start = 0#9) ∧
    (∀ x : Byte, v.length < 256 → ∃ t, exec (.write x) s = .next t ∧ t.block.view? = some (v ++ [x])) ∧
    (∀ x : Byte, v.length = 256 → ∃ t, exec (.write x) s = .next t ∧ t.block.result = .overflow ∧
      t.block.view? = some v ∧ t.block.start = s.block.start ∧ t.block.length = s.block.length) ∧
    (∃ t, exec .clear s = .next t ∧ t.block.view? = some []) ∧
    ∀ i t, (i ∈ [.nop, .clear, .compact] ∨ ∃ x, i = .write x) → exec i s = .next t →
      t.block.samples = s.block.samples ∧ t.block.svalid = s.block.svalid ∧ t.frames = s.frames ∧
      t.block.start.toNat + t.block.length.toNat ≤ 256 ∧ t.block.syncHolds = true

/-- The consequence of R63 together with R18: where in the window the view lies, and what the bytes outside it are,
cannot be observed. Two machines whose blocks agree on the view, the flags, the samples and the counters give the same
responses and the same FrameOut events for every sequence of host events with no RDREG START (0x0107) and no RDREG FREE
(0x0307), and end in agreement again. -/
def Obligations.PositionOfTheViewIsUnobservable : Prop :=
  ∀ (s s' : State) (es : List HostEvent),
    s.Inv → s'.Inv → SameView s.block s'.block → s.responses = s'.responses → s.frames = s'.frames →
    (∀ e ∈ es, e ≠ .command 0x0107#16 ∧ e ≠ .command 0x0307#16) →
      ∃ t t', Host.Core.run Sys2Proof.core es.length (s.setPending es) = .next t ∧
        Host.Core.run Sys2Proof.core es.length (s'.setPending es) = .next t' ∧
        t.responses = t'.responses ∧ t.frames = t'.frames ∧ SameView t.block t'.block

/-- R25: FREE and ROOM lie in 0 to 256, FREE is the size of the region after the view, and ROOM is the number of further
WRITEs accepted before one ends with OVERFLOW: that many bytes or fewer are all appended, each with response OK, and
after exactly ROOM of them the next WRITE overflows. -/
def Obligations.RoomIsTheNumberOfAcceptedWrites : Prop :=
  ∀ (s : State) (v bs : List Byte), s.Inv → s.block.view? = some v → bs.length ≤ s.block.room →
    s.block.free + (s.block.start.toNat + s.block.length.toNat) = 256 ∧ s.block.room + s.block.length.toNat = 256 ∧
    ∃ t, execAll (bs.map .write) s = .next t ∧ t.block.view? = some (v ++ bs) ∧
      t.responses = s.responses ++ List.replicate bs.length 0#32 ∧
      (bs.length = s.block.room → ∀ x : Byte, ∃ u, exec (.write x) t = .next u ∧ u.block.result = .overflow ∧
        u.block.view? = some (v ++ bs))

/-! ## Preamble detection -/

/-- R65 and R66: SCAN completes with the closed form. P non-empty: k is its least element, SYNC = 1, FOUND. P empty:
k = max(0, LENGTH - 2), SYNC = 0, NOT_FOUND. START and LENGTH move by k, DISCARD_COUNT counts k, and nothing else changes.
The k failing comparisons and the one that succeeds are at most max(0, LENGTH - 2), at most 254. -/
def Obligations.ScanIsItsClosedForm : Prop :=
  encode .scan = 0x0003#16 ∧
  ∀ (s : State) (v : List Byte), s.Inv → s.block.view? = some v →
    ∃ (k : Nat) (found : Bool), ScanOutcome v k found ∧
      k + (if found then 1 else 0) ≤ v.length - 2 ∧ v.length - 2 ≤ 254 ∧
      Ends .scan s { s.block with
          start    := BitVec.ofNat 9 (s.block.start.toNat + k),
          length   := BitVec.ofNat 9 (v.length - k),
          sync     := found,
          result   := if found then .found else .notFound,
          counters := { s.block.counters with discard := s.block.counters.discard + BitVec.ofNat 32 k } }
        (if found then 2#32 else 1#32) []

/-- R67, the laws of the synchronizer: (a) leftmost match, discarding exactly the garbage G; (b) after NOT_FOUND every
byte discarded began a failed comparison, at most two are kept, and whatever bytes arrive after them no preamble starts
before the first of the two; (c) a second scan discards nothing; (d) no preamble is
lost; (e) view bytes are never changed, only discarded from the front. -/
def Obligations.SynchronizerLaws : Prop :=
  ∀ (s t : State) (v : List Byte), s.Inv → s.block.view? = some v → exec .scan s = .next t →
    (∀ G T : List Byte, v = G ++ [0xAA#8, 0xAA#8, 0xAA#8] ++ T → (∀ j < G.length, hasPreamble v j = false) →
      t.block.result = .found ∧ t.block.view? = some ([0xAA#8, 0xAA#8, 0xAA#8] ++ T) ∧
      t.block.counters.discard = s.block.counters.discard + BitVec.ofNat 32 G.length) ∧
    (t.block.result = .notFound → (∀ j, hasPreamble v j = false) ∧
      t.block.view? = some (v.drop (v.length - 2)) ∧
      ∀ (more : List Byte) (j : Nat), hasPreamble (v ++ more) j = true → v.length - 2 ≤ j) ∧
    (∀ u, exec .scan t = .next u → u.block = t.block) ∧
    ((∃ j, hasPreamble v j = true) → t.block.result = .found) ∧
    (∃ k, t.block.view? = some (v.drop k) ∧ t.block.start.toNat = s.block.start.toNat + k) ∧
    ∀ a, t.block.window.read a = s.block.window.read a

/-! ## Frame parsing -/

/-- R69: DECODE completes, with INCOMPLETE when fewer than 13 bytes are in the view, else MISALIGNED when the view does not
start with the preamble, else DECODED with the five samples; it never changes START, LENGTH, SYNC, the window or
DISCARD_COUNT. -/
def Obligations.DecodeChecksThenExtracts : Prop :=
  encode .decode = 0x0004#16 ∧
  ∀ (s : State) (v : List Byte), s.Inv → s.block.view? = some v →
    (v.length < 13 → Ends .decode s { s.block with svalid := false, result := .incomplete } 3#32 []) ∧
    (13 ≤ v.length → hasPreamble v 0 = false →
      Ends .decode s { s.block with
        svalid := false, result := .misaligned,
        counters := { s.block.counters with misalign := s.block.counters.misalign + 1#32 } } 5#32 []) ∧
    (13 ≤ v.length → hasPreamble v 0 = true →
      Ends .decode s { s.block with
        svalid := true, result := .decoded, samples := frameSamples v,
        counters := { s.block.counters with frame := s.block.counters.frame + 1#32 } } 4#32 [frameSamples v])

/-- R70, the laws of the parser: (a, d) whatever ten bytes follow the preamble decode to h_j * 256 + l_j, with no other
check; (b) result and samples are a function of the first 13 view bytes and LENGTH alone; (c) DECODED implies that the
view starts with AA AA AA. -/
def Obligations.ParserLaws : Prop :=
  (∀ (s : State) (h0 l0 h1 l1 h2 l2 h3 l3 h4 l4 : Byte) (rest : List Byte), s.Inv →
    s.block.view? = some ([0xAA#8, 0xAA#8, 0xAA#8, h0, l0, h1, l1, h2, l2, h3, l3, h4, l4] ++ rest) →
    ∃ t, exec .decode s = .next t ∧ t.block.result = .decoded ∧
      t.block.samples.s0.toNat = h0.toNat * 256 + l0.toNat ∧ t.block.samples.s1.toNat = h1.toNat * 256 + l1.toNat ∧
      t.block.samples.s2.toNat = h2.toNat * 256 + l2.toNat ∧ t.block.samples.s3.toNat = h3.toNat * 256 + l3.toNat ∧
      t.block.samples.s4.toNat = h4.toNat * 256 + l4.toNat) ∧
  (∀ (s s' t t' : State) (v v' : List Byte), s.Inv → s'.Inv → s.block.view? = some v → s'.block.view? = some v' →
    v.length = v'.length → v.take 13 = v'.take 13 → exec .decode s = .next t → exec .decode s' = .next t' →
      t.block.result = t'.block.result ∧
      (t.block.result = .decoded → t.block.samples = t'.block.samples)) ∧
  ∀ (s t : State) (v : List Byte), s.Inv → s.block.view? = some v → exec .decode s = .next t →
    t.block.result = .decoded → v.take 3 = [0xAA#8, 0xAA#8, 0xAA#8]

/-! ## The acquisition cycle -/

/-- R71 and R72: CYCLE completes in one of three ways. No preamble: NOT_FOUND, the last min(LENGTH, 2) bytes are kept,
SEEKING. A preamble with fewer than 13 bytes from it: INCOMPLETE, the bytes from the preamble on are kept, AWAITING_BODY.
Thirteen or more: DECODED, the frame's samples are delivered, and the window is emptied with all that followed the frame.
The scan offset is counted in DISCARD_COUNT each time. -/
def Obligations.CycleSynchronizesThenDecodes : Prop :=
  encode .cycle = 0x0005#16 ∧
  ∀ (s : State) (v : List Byte), s.Inv → s.block.view? = some v →
    ∃ (k : Nat) (found : Bool), ScanOutcome v k found ∧
      (found = false →
        Ends .cycle s { s.block with
          start := BitVec.ofNat 9 (s.block.start.toNat + k), length := BitVec.ofNat 9 (v.length - k),
          sync := false, svalid := false, result := .notFound,
          counters := { s.block.counters with discard := s.block.counters.discard + BitVec.ofNat 32 k } } 1#32 [] ∧
        v.length - k = min v.length 2) ∧
      (found = true → v.length - k < 13 →
        Ends .cycle s { s.block with
          start := BitVec.ofNat 9 (s.block.start.toNat + k), length := BitVec.ofNat 9 (v.length - k),
          sync := true, svalid := false, result := .incomplete,
          counters := { s.block.counters with discard := s.block.counters.discard + BitVec.ofNat 32 k } } 3#32 [] ∧
        3 ≤ v.length - k) ∧
      (found = true → 13 ≤ v.length - k →
        Ends .cycle s { s.block with
          start := 0#9, length := 0#9, sync := false, svalid := true, result := .decoded,
          samples := frameSamples (v.drop k),
          counters := { s.block.counters with
            discard := s.block.counters.discard + BitVec.ofNat 32 k,
            frame   := s.block.counters.frame + 1#32 } } 4#32 [frameSamples (v.drop k)])

/-- The laws (a), (b), (c) and (e) of 43_cycle.md R73: MISALIGNED is unreachable; after any CYCLE LENGTH <= 12 and the
state is never FRAME_READY; SVALID = 1 exactly when it ended with DECODED; with fewer than 13 bytes from the preamble
nothing is emitted. -/
def Obligations.CycleLaws : Prop :=
  ∀ (s t : State) (v : List Byte), s.Inv → s.block.view? = some v → exec .cycle s = .next t →
    t.block.result ∈ [.notFound, .incomplete, .decoded] ∧
    t.block.counters.misalign = s.block.counters.misalign ∧
    t.block.length.toNat ≤ 12 ∧ t.block.syncState ≠ .frameReady ∧
    (t.block.svalid = true ↔ t.block.result = .decoded) ∧
    (∀ k, ScanOutcome v k true → v.length - k < 13 → t.frames = s.frames)

/-- Law (d) of 43_cycle.md R73: a frame F preceded by garbage G, with no three consecutive bytes starting inside G equal to
the preamble, delivered in any split into POLLs of at most 244 bytes, is decoded by the CYCLE that follows the delivery of
its 13th byte and by no earlier one; exactly G is discarded and counted. Deliveries of that size are the ones that
70_reset_and_hazards.md R94 calls always safe after a CYCLE, so here it is a conclusion that no WRITE overflows; the view
before has at most the 12 bytes that a CYCLE leaves, which may be the first bytes of G and F. Larger deliveries and views
are in `SplitFrameIsDecodedUnlessAWriteOverflows`. -/
def Obligations.SplitFrameIsDecodedByTheCycleAfterItsLastByte : Prop :=
  ∀ (s : State) (u G F T : List Byte) (earlier : List (List Byte)) (last : List Byte),
    s.Inv → s.block.view? = some u → u.length ≤ 12 →
    F.length = 13 → F.take 3 = [0xAA#8, 0xAA#8, 0xAA#8] → (∀ j < G.length, hasPreamble (G ++ F) j = false) →
    u ++ earlier.flatten ++ last = G ++ F ++ T → (u ++ earlier.flatten).length < G.length + 13 →
    (∀ c ∈ earlier ++ [last], c.length ≤ 244) →
      ∃ t, execAll ((earlier ++ [last]).flatMap pollCommands) s = .next t ∧
        t.frames = s.frames ++ [frameSamples F] ∧ t.block.samples = frameSamples F ∧ t.block.svalid = true ∧
        t.responses.getLast? = some 4#32 ∧ t.block.view? = some [] ∧
        t.block.counters.discard = s.block.counters.discard + BitVec.ofNat 32 G.length ∧
        t.block.counters.frame = s.block.counters.frame + 1#32 ∧
        t.block.counters.overflow = s.block.counters.overflow

/-- Law (d) of 43_cycle.md R73 under its own condition, that no WRITE ends with OVERFLOW (response 6), whatever the size of
each delivery and of the view before: a frame F preceded by garbage G, in any split over any number of POLLs, is decoded by
the CYCLE of the POLL that completes F and by no earlier one. Every POLL completes, overflow or not. That no earlier CYCLE
decodes a frame, the law's other condition, is not assumed: it follows, since the bytes before F completes are a part of
G and F. -/
def Obligations.SplitFrameIsDecodedUnlessAWriteOverflows : Prop :=
  ∀ (s : State) (u G F T : List Byte) (earlier : List (List Byte)) (last : List Byte),
    s.Inv → s.block.view? = some u →
    F.length = 13 → F.take 3 = [0xAA#8, 0xAA#8, 0xAA#8] → (∀ j < G.length, hasPreamble (G ++ F) j = false) →
    u ++ earlier.flatten ++ last = G ++ F ++ T → (u ++ earlier.flatten).length < G.length + 13 →
      ∃ (t : State) (rs : List Word),
        execAll ((earlier ++ [last]).flatMap pollCommands) s = .next t ∧ t.responses = s.responses ++ rs ∧
        (6#32 ∉ rs →
          rs.getLast? = some 4#32 ∧ 4#32 ∉ rs.dropLast ∧
          t.frames = s.frames ++ [frameSamples F] ∧ t.block.samples = frameSamples F ∧ t.block.svalid = true ∧
          t.block.view? = some [] ∧
          t.block.counters.discard = s.block.counters.discard + BitVec.ofNat 32 G.length ∧
          t.block.counters.frame = s.block.counters.frame + 1#32)

/-- 70_reset_and_hazards.md R94: a delivery of up to 244 bytes after a CYCLE is always safe: every byte is appended. -/
def Obligations.DeliveryAfterCycleIsSafe : Prop :=
  ∀ (s t : State) (v bs : List Byte), s.Inv → exec .cycle s = .next t → t.block.view? = some v → bs.length ≤ 244 →
    ∃ u, execAll (bs.map .write) t = .next u ∧ u.block.view? = some (v ++ bs) ∧
      u.block.counters.overflow = t.block.counters.overflow

/-- 70_reset_and_hazards.md R97: DECODE does not consume the frame, so DECODE twice, or DECODE then CYCLE, delivers the same
frame twice and counts it twice; a CYCLE that decodes leaves nothing to decode again. -/
def Obligations.OnlyCycleConsumesTheFrame : Prop :=
  ∀ (s t : State) (v : List Byte), s.Inv → s.block.view? = some v → exec .decode s = .next t →
    t.block.result = .decoded →
      (∀ i, i = .decode ∨ i = .cycle → ∃ u, exec i t = .next u ∧ u.block.result = .decoded ∧
        u.frames = s.frames ++ [frameSamples v, frameSamples v] ∧
        u.block.counters.frame = s.block.counters.frame + 2#32) ∧
      ∃ u, exec .cycle s = .next u ∧ u.block.result = .decoded ∧
        ∃ u', exec .decode u = .next u' ∧ u'.block.result = .incomplete ∧ u'.frames = u.frames

/-! ## Register and view access -/

/-- R28 and R74: RDREG completes in every state, changes no state, and answers the value the map gives its index, 0 at an
unmapped one; right after reset the values are those of the map's last column. -/
def Obligations.RdregAnswersTheRegisterMap : Prop :=
  (∀ n : Byte, Ends (.rdreg n) State.reset Block.reset
    (if n = 0x03#8 ∨ n = 0x0A#8 then 256#32 else if n = 0x04#8 then 0xAA530100#32 else 0#32) []) ∧
  ∀ (s : State) (n : Byte), encode (.rdreg n) = n ++ 0x07#8 ∧ ∃ r : Word, Ends (.rdreg n) s s.block r [] ∧
    (n = 0x00#8 → r = s.block.status) ∧
    (n = 0x01#8 → r.toNat = s.block.start.toNat) ∧
    (n = 0x02#8 → r.toNat = s.block.length.toNat) ∧
    (n = 0x03#8 → r.toNat = 256 - (s.block.start.toNat + s.block.length.toNat)) ∧
    (n = 0x04#8 → r = 0xAA530100#32) ∧
    (n = 0x05#8 → r = s.block.counters.frame) ∧
    (n = 0x06#8 → r = s.block.counters.discard) ∧
    (n = 0x07#8 → r = s.block.counters.misalign) ∧
    (n = 0x08#8 → r = s.block.counters.overflow) ∧
    (n = 0x09#8 → r = s.block.counters.illegal) ∧
    (n = 0x0A#8 → r.toNat = 256 - s.block.length.toNat) ∧
    (n = 0x10#8 → r.toNat = s.block.samples.s0.toNat) ∧
    (n = 0x11#8 → r.toNat = s.block.samples.s1.toNat) ∧
    (n = 0x12#8 → r.toNat = s.block.samples.s2.toNat) ∧
    (n = 0x13#8 → r.toNat = s.block.samples.s3.toNat) ∧
    (n = 0x14#8 → r.toNat = s.block.samples.s4.toNat) ∧
    (0x0A < n.toNat ∧ n.toNat < 0x10 ∨ 0x14 < n.toNat → r = 0#32)

/-- R20 and R29: the fields of STATUS as RDREG answers it, STATE computed from SYNC and LENGTH and never 3, RESULT never
above 7, and every other bit 0; all of it 0 after reset. -/
def Obligations.StatusFields : Prop :=
  Ends (.rdreg 0x00#8) State.reset Block.reset 0#32 [] ∧
  ∀ s : State, ∃ r : Word, Ends (.rdreg 0x00#8) s s.block r [] ∧
    r.getLsbD 0 = s.block.sync ∧ r.getLsbD 1 = s.block.svalid ∧
    (r.extractLsb' 2 2).toNat =
      (if s.block.sync then (if s.block.length.toNat < 13 then 1 else 2) else 0) ∧
    (r.extractLsb' 2 2).toNat ≠ 3 ∧
    r.extractLsb' 4 4 = s.block.result.code ∧ (r.extractLsb' 4 4).toNat ≤ 7 ∧ r.extractLsb' 8 24 = 0#24

/-- R75: RDVIEW completes, changes no state, and answers view byte i zero-extended for i < LENGTH and 0 beyond; with i
below LENGTH the index START + i is one of the window's. -/
def Obligations.RdviewAnswersTheViewByte : Prop :=
  ∀ (s : State) (v : List Byte) (i : Byte), s.Inv → s.block.view? = some v →
    encode (.rdview i) = i ++ 0x08#8 ∧ ∃ r : Word, Ends (.rdview i) s s.block r [] ∧
      (i.toNat < s.block.length.toNat → v[i.toNat]? = some (r.setWidth 8) ∧ r.toNat < 256 ∧
        s.block.window.read (s.block.start.toNat + i.toNat) = v[i.toNat]? ∧ s.block.start.toNat + i.toNat ≤ 255) ∧
      (s.block.length.toNat ≤ i.toNat → r = 0#32)
end

