-- ==== Sys2Proof/Laws/State.lean ====
section
/-! SUPPORT. One lemma per field per named update of Block, Counters and State, so that no proof unfolds an update. -/

namespace Sys2Proof.Machine

section BlockUpdates
variable (b : Block)

@[simp] theorem Block.setWindow_window (m : Memory) : (b.setWindow m).window = m := rfl
@[simp] theorem Block.setWindow_start (m : Memory) : (b.setWindow m).start = b.start := rfl
@[simp] theorem Block.setWindow_length (m : Memory) : (b.setWindow m).length = b.length := rfl
@[simp] theorem Block.setWindow_sync (m : Memory) : (b.setWindow m).sync = b.sync := rfl
@[simp] theorem Block.setWindow_svalid (m : Memory) : (b.setWindow m).svalid = b.svalid := rfl
@[simp] theorem Block.setWindow_result (m : Memory) : (b.setWindow m).result = b.result := rfl
@[simp] theorem Block.setWindow_samples (m : Memory) : (b.setWindow m).samples = b.samples := rfl
@[simp] theorem Block.setWindow_counters (m : Memory) : (b.setWindow m).counters = b.counters := rfl

@[simp] theorem Block.setStart_window (n : Nat) : (b.setStart n).window = b.window := rfl
@[simp] theorem Block.setStart_start (n : Nat) : (b.setStart n).start = BitVec.ofNat 9 n := rfl
@[simp] theorem Block.setStart_length (n : Nat) : (b.setStart n).length = b.length := rfl
@[simp] theorem Block.setStart_sync (n : Nat) : (b.setStart n).sync = b.sync := rfl
@[simp] theorem Block.setStart_svalid (n : Nat) : (b.setStart n).svalid = b.svalid := rfl
@[simp] theorem Block.setStart_result (n : Nat) : (b.setStart n).result = b.result := rfl
@[simp] theorem Block.setStart_samples (n : Nat) : (b.setStart n).samples = b.samples := rfl
@[simp] theorem Block.setStart_counters (n : Nat) : (b.setStart n).counters = b.counters := rfl

@[simp] theorem Block.setLength_window (n : Nat) : (b.setLength n).window = b.window := rfl
@[simp] theorem Block.setLength_start (n : Nat) : (b.setLength n).start = b.start := rfl
@[simp] theorem Block.setLength_length (n : Nat) : (b.setLength n).length = BitVec.ofNat 9 n := rfl
@[simp] theorem Block.setLength_sync (n : Nat) : (b.setLength n).sync = b.sync := rfl
@[simp] theorem Block.setLength_svalid (n : Nat) : (b.setLength n).svalid = b.svalid := rfl
@[simp] theorem Block.setLength_result (n : Nat) : (b.setLength n).result = b.result := rfl
@[simp] theorem Block.setLength_samples (n : Nat) : (b.setLength n).samples = b.samples := rfl
@[simp] theorem Block.setLength_counters (n : Nat) : (b.setLength n).counters = b.counters := rfl

@[simp] theorem Block.setSync_window (v : Bool) : (b.setSync v).window = b.window := rfl
@[simp] theorem Block.setSync_start (v : Bool) : (b.setSync v).start = b.start := rfl
@[simp] theorem Block.setSync_length (v : Bool) : (b.setSync v).length = b.length := rfl
@[simp] theorem Block.setSync_sync (v : Bool) : (b.setSync v).sync = v := rfl
@[simp] theorem Block.setSync_svalid (v : Bool) : (b.setSync v).svalid = b.svalid := rfl
@[simp] theorem Block.setSync_result (v : Bool) : (b.setSync v).result = b.result := rfl
@[simp] theorem Block.setSync_samples (v : Bool) : (b.setSync v).samples = b.samples := rfl
@[simp] theorem Block.setSync_counters (v : Bool) : (b.setSync v).counters = b.counters := rfl

@[simp] theorem Block.setSvalid_window (v : Bool) : (b.setSvalid v).window = b.window := rfl
@[simp] theorem Block.setSvalid_start (v : Bool) : (b.setSvalid v).start = b.start := rfl
@[simp] theorem Block.setSvalid_length (v : Bool) : (b.setSvalid v).length = b.length := rfl
@[simp] theorem Block.setSvalid_sync (v : Bool) : (b.setSvalid v).sync = b.sync := rfl
@[simp] theorem Block.setSvalid_svalid (v : Bool) : (b.setSvalid v).svalid = v := rfl
@[simp] theorem Block.setSvalid_result (v : Bool) : (b.setSvalid v).result = b.result := rfl
@[simp] theorem Block.setSvalid_samples (v : Bool) : (b.setSvalid v).samples = b.samples := rfl
@[simp] theorem Block.setSvalid_counters (v : Bool) : (b.setSvalid v).counters = b.counters := rfl

@[simp] theorem Block.setResult_window (c : ResultCode) : (b.setResult c).window = b.window := rfl
@[simp] theorem Block.setResult_start (c : ResultCode) : (b.setResult c).start = b.start := rfl
@[simp] theorem Block.setResult_length (c : ResultCode) : (b.setResult c).length = b.length := rfl
@[simp] theorem Block.setResult_sync (c : ResultCode) : (b.setResult c).sync = b.sync := rfl
@[simp] theorem Block.setResult_svalid (c : ResultCode) : (b.setResult c).svalid = b.svalid := rfl
@[simp] theorem Block.setResult_result (c : ResultCode) : (b.setResult c).result = c := rfl
@[simp] theorem Block.setResult_samples (c : ResultCode) : (b.setResult c).samples = b.samples := rfl
@[simp] theorem Block.setResult_counters (c : ResultCode) : (b.setResult c).counters = b.counters := rfl

@[simp] theorem Block.setSamples_window (v : Samples) : (b.setSamples v).window = b.window := rfl
@[simp] theorem Block.setSamples_start (v : Samples) : (b.setSamples v).start = b.start := rfl
@[simp] theorem Block.setSamples_length (v : Samples) : (b.setSamples v).length = b.length := rfl
@[simp] theorem Block.setSamples_sync (v : Samples) : (b.setSamples v).sync = b.sync := rfl
@[simp] theorem Block.setSamples_svalid (v : Samples) : (b.setSamples v).svalid = b.svalid := rfl
@[simp] theorem Block.setSamples_result (v : Samples) : (b.setSamples v).result = b.result := rfl
@[simp] theorem Block.setSamples_samples (v : Samples) : (b.setSamples v).samples = v := rfl
@[simp] theorem Block.setSamples_counters (v : Samples) : (b.setSamples v).counters = b.counters := rfl

@[simp] theorem Block.setCounters_window (c : Counters) : (b.setCounters c).window = b.window := rfl
@[simp] theorem Block.setCounters_start (c : Counters) : (b.setCounters c).start = b.start := rfl
@[simp] theorem Block.setCounters_length (c : Counters) : (b.setCounters c).length = b.length := rfl
@[simp] theorem Block.setCounters_sync (c : Counters) : (b.setCounters c).sync = b.sync := rfl
@[simp] theorem Block.setCounters_svalid (c : Counters) : (b.setCounters c).svalid = b.svalid := rfl
@[simp] theorem Block.setCounters_result (c : Counters) : (b.setCounters c).result = b.result := rfl
@[simp] theorem Block.setCounters_samples (c : Counters) : (b.setCounters c).samples = b.samples := rfl
@[simp] theorem Block.setCounters_counters (c : Counters) : (b.setCounters c).counters = c := rfl

end BlockUpdates

section CounterUpdates
variable (c : Counters)

@[simp] theorem Counters.addFrame_frame : c.addFrame.frame = c.frame + 1#32 := rfl
@[simp] theorem Counters.addFrame_discard : c.addFrame.discard = c.discard := rfl
@[simp] theorem Counters.addFrame_misalign : c.addFrame.misalign = c.misalign := rfl
@[simp] theorem Counters.addFrame_overflow : c.addFrame.overflow = c.overflow := rfl
@[simp] theorem Counters.addFrame_illegal : c.addFrame.illegal = c.illegal := rfl

@[simp] theorem Counters.addMisalign_frame : c.addMisalign.frame = c.frame := rfl
@[simp] theorem Counters.addMisalign_discard : c.addMisalign.discard = c.discard := rfl
@[simp] theorem Counters.addMisalign_misalign : c.addMisalign.misalign = c.misalign + 1#32 := rfl
@[simp] theorem Counters.addMisalign_overflow : c.addMisalign.overflow = c.overflow := rfl
@[simp] theorem Counters.addMisalign_illegal : c.addMisalign.illegal = c.illegal := rfl

@[simp] theorem Counters.addOverflow_frame : c.addOverflow.frame = c.frame := rfl
@[simp] theorem Counters.addOverflow_discard : c.addOverflow.discard = c.discard := rfl
@[simp] theorem Counters.addOverflow_misalign : c.addOverflow.misalign = c.misalign := rfl
@[simp] theorem Counters.addOverflow_overflow : c.addOverflow.overflow = c.overflow + 1#32 := rfl
@[simp] theorem Counters.addOverflow_illegal : c.addOverflow.illegal = c.illegal := rfl

@[simp] theorem Counters.addIllegal_frame : c.addIllegal.frame = c.frame := rfl
@[simp] theorem Counters.addIllegal_discard : c.addIllegal.discard = c.discard := rfl
@[simp] theorem Counters.addIllegal_misalign : c.addIllegal.misalign = c.misalign := rfl
@[simp] theorem Counters.addIllegal_overflow : c.addIllegal.overflow = c.overflow := rfl
@[simp] theorem Counters.addIllegal_illegal : c.addIllegal.illegal = c.illegal + 1#32 := rfl

@[simp] theorem Counters.addDiscard_frame (k : Nat) : (c.addDiscard k).frame = c.frame := rfl
@[simp] theorem Counters.addDiscard_discard (k : Nat) : (c.addDiscard k).discard = c.discard + BitVec.ofNat 32 k := rfl
@[simp] theorem Counters.addDiscard_misalign (k : Nat) : (c.addDiscard k).misalign = c.misalign := rfl
@[simp] theorem Counters.addDiscard_overflow (k : Nat) : (c.addDiscard k).overflow = c.overflow := rfl
@[simp] theorem Counters.addDiscard_illegal (k : Nat) : (c.addDiscard k).illegal = c.illegal := rfl

end CounterUpdates

section StateUpdates
variable (s : State)

@[simp] theorem State.answer_block (r : Reply) : (s.answer r).block = r.block := rfl
@[simp] theorem State.answer_pending (r : Reply) : (s.answer r).pending = s.pending := rfl
@[simp] theorem State.answer_responses (r : Reply) : (s.answer r).responses = s.responses ++ [r.response] := rfl
@[simp] theorem State.answer_frames (r : Reply) : (s.answer r).frames = s.frames ++ r.frame.toList := rfl

@[simp] theorem State.takeReset_block : s.takeReset.block = Block.reset := rfl
@[simp] theorem State.takeReset_pending : s.takeReset.pending = s.pending := rfl
@[simp] theorem State.takeReset_responses : s.takeReset.responses = s.responses := rfl
@[simp] theorem State.takeReset_frames : s.takeReset.frames = s.frames := rfl

@[simp] theorem State.setPending_block (es : List HostEvent) : (s.setPending es).block = s.block := rfl
@[simp] theorem State.setPending_pending (es : List HostEvent) : (s.setPending es).pending = es := rfl
@[simp] theorem State.setPending_responses (es : List HostEvent) : (s.setPending es).responses = s.responses := rfl
@[simp] theorem State.setPending_frames (es : List HostEvent) : (s.setPending es).frames = s.frames := rfl

end StateUpdates

end Sys2Proof.Machine
end

