-- ==== Sys2Proof/Laws/Memory.lean ====
section
/-! SUPPORT. The laws of the window memory: what a read gives after a write, that every operation keeps the canonical
form, and what the multi-byte reads and writes do. -/

namespace Sys2Proof.Machine

/-! ## One byte -/

theorem Memory.read_write (m : Memory) (a : Nat) (v : Byte) (x : Nat) :
    (m.write a v).read x = if x = a then some v else m.read x := by
  induction m with
  | nil => simp [Memory.write, Memory.read]
  | cons c m ih =>
    simp only [Memory.write]
    by_cases h1 : a < c.1
    · rw [if_pos h1]; simp [Memory.read]
    · rw [if_neg h1]
      by_cases h2 : a = c.1
      · rw [if_pos h2]; subst h2
        by_cases h3 : x = c.1 <;> simp [Memory.read, h3]
      · rw [if_neg h2]
        simp only [Memory.read, ih]
        by_cases h3 : x = c.1
        · have : x ≠ a := by omega
          simp [h3, Ne.symm h2]
        · simp [h3]

theorem Memory.risingFrom_write {m : Memory} {lo a : Nat} {v : Byte} (hm : m.risingFrom lo = true)
    (hlo : lo ≤ a) (ha : a < Config.cap) : (m.write a v).risingFrom lo = true := by
  induction m generalizing lo with
  | nil => simpa [Memory.write, Memory.risingFrom] using ⟨hlo, ha⟩
  | cons c m ih =>
    simp only [Memory.risingFrom, Bool.and_eq_true, decide_eq_true_eq] at hm
    obtain ⟨⟨h1, h2⟩, h3⟩ := hm
    simp only [Memory.write]
    by_cases hac : a < c.1
    · rw [if_pos hac]; simp only [Memory.risingFrom, Bool.and_eq_true, decide_eq_true_eq]
      exact ⟨⟨hlo, ha⟩, ⟨by omega, h2⟩, h3⟩
    · rw [if_neg hac]
      by_cases he : a = c.1
      · rw [if_pos he]; subst he
        simp only [Memory.risingFrom, Bool.and_eq_true, decide_eq_true_eq]
        exact ⟨⟨h1, h2⟩, h3⟩
      · rw [if_neg he]; simp only [Memory.risingFrom, Bool.and_eq_true, decide_eq_true_eq]
        exact ⟨⟨h1, h2⟩, ih h3 (by omega)⟩

/-- A write inside the window keeps the canonical form. -/
theorem Memory.wf_write {m : Memory} {a : Nat} {v : Byte} (hm : m.wf = true) (ha : a < Config.cap) :
    (m.write a v).wf = true :=
  Memory.risingFrom_write hm (Nat.zero_le _) ha

theorem Memory.read_below {m : Memory} {lo x : Nat} (hm : m.risingFrom lo = true) (hx : x < lo) : m.read x = none := by
  induction m generalizing lo with
  | nil => rfl
  | cons c m ih =>
    simp only [Memory.risingFrom, Bool.and_eq_true, decide_eq_true_eq] at hm
    have : x ≠ c.1 := by omega
    simp only [Memory.read, if_neg this]
    exact ih hm.2 (by omega)

/-- In canonical form only indices of the window have a value. -/
theorem Memory.lt_cap_of_read {m : Memory} {lo x : Nat} {v : Byte} (hm : m.risingFrom lo = true)
    (h : m.read x = some v) : x < Config.cap := by
  induction m generalizing lo with
  | nil => simp [Memory.read] at h
  | cons c m ih =>
    simp only [Memory.risingFrom, Bool.and_eq_true, decide_eq_true_eq] at hm
    by_cases hx : x = c.1
    · omega
    · simp only [Memory.read, if_neg hx] at h; exact ih hm.2 h

/-- Two canonical memories that read alike everywhere are equal. -/
theorem Memory.ext_of_read {m m' : Memory} {lo : Nat} (hm : m.risingFrom lo = true) (hm' : m'.risingFrom lo = true)
    (h : ∀ x, m.read x = m'.read x) : m = m' := by
  induction m generalizing lo m' with
  | nil =>
    cases m' with
    | nil => rfl
    | cons c' m' => have := h c'.1; simp [Memory.read] at this
  | cons c m ih =>
    simp only [Memory.risingFrom, Bool.and_eq_true, decide_eq_true_eq] at hm
    cases m' with
    | nil => have := h c.1; simp [Memory.read] at this
    | cons c' m' =>
      simp only [Memory.risingFrom, Bool.and_eq_true, decide_eq_true_eq] at hm'
      have key : c.1 = c'.1 := by
        rcases Nat.lt_trichotomy c.1 c'.1 with hlt | heq | hgt
        · have := h c.1
          simp only [Memory.read, if_pos, if_neg (Nat.ne_of_lt hlt)] at this
          rw [Memory.read_below hm'.2 (by omega)] at this; simp at this
        · exact heq
        · have := h c'.1
          simp only [Memory.read, if_pos, if_neg (Nat.ne_of_lt hgt)] at this
          rw [Memory.read_below hm.2 (by omega)] at this; simp at this
      have hv : c.2 = c'.2 := by
        have := h c.1
        rw [key] at this
        simpa [Memory.read, key] using this
      have htail : ∀ x, Memory.read m x = Memory.read m' x := by
        intro x
        by_cases hx : x = c.1
        · rw [Memory.read_below hm.2 (by omega), Memory.read_below hm'.2 (by omega)]
        · have := h x
          simpa [Memory.read, hx, key ▸ hx] using this
      obtain ⟨a, v⟩ := c; obtain ⟨a', v'⟩ := c'
      simp only at key hv; subst key hv
      rw [ih hm.2 hm'.2 htail]

/-! ## Several bytes -/

theorem Memory.readBytes_succ (m : Memory) (a n : Nat) :
    m.readBytes a (n + 1) = (m.read a).bind (fun v => (m.readBytes (a + 1) n).map (v :: ·)) := by
  simp only [Memory.readBytes]
  cases m.read a <;> cases m.readBytes (a + 1) n <;> rfl

/-- A multi-byte read answers `vs` exactly when `vs` has that many bytes and each is the byte at its index. -/
theorem Memory.readBytes_eq_some {m : Memory} {a n : Nat} {vs : List Byte} :
    m.readBytes a n = some vs ↔ vs.length = n ∧ ∀ i < n, m.read (a + i) = vs[i]? := by
  induction n generalizing a vs with
  | zero =>
    simp only [Memory.readBytes, Option.some.injEq]
    constructor
    · rintro rfl; simp
    · rintro ⟨h, -⟩; exact (List.length_eq_zero_iff.1 h).symm
  | succ n ih =>
    rw [Memory.readBytes_succ]
    constructor
    · intro h
      obtain ⟨v, hv, h⟩ := Option.bind_eq_some_iff.1 h
      obtain ⟨ws, hws, rfl⟩ := Option.map_eq_some_iff.1 h
      obtain ⟨hl, hr⟩ := ih.1 hws
      refine ⟨by simp [hl], ?_⟩
      intro i hi
      cases i with
      | zero => simpa using hv
      | succ i => simpa [Nat.add_assoc, Nat.add_comm 1 i] using hr i (by omega)
    · rintro ⟨hl, hr⟩
      cases vs with
      | nil => simp at hl
      | cons v vs =>
        have h0 : m.read a = some v := by simpa using hr 0 (by omega)
        have h1 : m.readBytes (a + 1) n = some vs := by
          refine ih.2 ⟨by simpa using hl, fun i hi => ?_⟩
          simpa [Nat.add_assoc, Nat.add_comm 1 i] using hr (i + 1) (by omega)
        simp [h0, h1]

theorem Memory.readBytes_isSome {m : Memory} {a n : Nat} :
    (m.readBytes a n).isSome = true ↔ ∀ i < n, (m.read (a + i)).isSome = true := by
  induction n generalizing a with
  | zero => simp [Memory.readBytes]
  | succ n ih =>
    rw [Memory.readBytes_succ]
    have : ((m.read a).bind fun v => (m.readBytes (a + 1) n).map (v :: ·)).isSome = true ↔
        (m.read a).isSome = true ∧ (m.readBytes (a + 1) n).isSome = true := by
      cases m.read a <;> simp
    rw [this, ih]
    constructor
    · rintro ⟨h0, h⟩ i hi
      cases i with
      | zero => simpa using h0
      | succ i => simpa [Nat.add_assoc, Nat.add_comm 1 i] using h i (by omega)
    · intro h
      refine ⟨by simpa using h 0 (by omega), fun i hi => ?_⟩
      simpa [Nat.add_assoc, Nat.add_comm 1 i] using h (i + 1) (by omega)

/-- A read inside a longer defined read answers the matching piece of it. -/
theorem Memory.readBytes_within {m : Memory} {a n k l : Nat} {vs : List Byte} (h : m.readBytes a n = some vs)
    (hkl : k + l ≤ n) : m.readBytes (a + k) l = some ((vs.drop k).take l) := by
  obtain ⟨hl, hr⟩ := Memory.readBytes_eq_some.1 h
  refine Memory.readBytes_eq_some.2 ⟨by simp; omega, fun i hi => ?_⟩
  rw [List.getElem?_take_of_lt hi, List.getElem?_drop, Nat.add_assoc]
  exact hr (k + i) (by omega)

/-- A multi-byte read looks at nothing but its own indices. -/
theorem Memory.readBytes_congr {m m' : Memory} {a n : Nat} (h : ∀ i < n, m.read (a + i) = m'.read (a + i)) :
    m.readBytes a n = m'.readBytes a n := by
  induction n generalizing a with
  | zero => rfl
  | succ n ih =>
    rw [Memory.readBytes_succ, Memory.readBytes_succ]
    have h0 : m.read a = m'.read a := by simpa using h 0 (by omega)
    have h1 : m.readBytes (a + 1) n = m'.readBytes (a + 1) n :=
      ih fun i hi => by simpa [Nat.add_assoc, Nat.add_comm 1 i] using h (i + 1) (by omega)
    rw [h0, h1]

theorem Memory.read_writeBytes (m : Memory) (a : Nat) (vs : List Byte) (x : Nat) :
    (m.writeBytes a vs).read x = if a ≤ x ∧ x < a + vs.length then vs[x - a]? else m.read x := by
  induction vs generalizing m a with
  | nil =>
    have : ¬ (a ≤ x ∧ x < a + ([] : List Byte).length) := by simp
    rw [if_neg this]; rfl
  | cons v vs ih =>
    simp only [Memory.writeBytes, ih, Memory.read_write, List.length_cons]
    by_cases hx : x = a
    · subst hx; simp
    · by_cases h1 : a + 1 ≤ x ∧ x < a + 1 + vs.length
      · have h2 : a ≤ x ∧ x < a + (vs.length + 1) := by omega
        have h3 : x - a = (x - (a + 1)) + 1 := by omega
        rw [if_pos h1, if_pos h2, h3, List.getElem?_cons_succ]
      · have h2 : ¬ (a ≤ x ∧ x < a + (vs.length + 1)) := by omega
        rw [if_neg h1, if_neg h2, if_neg hx]

theorem Memory.wf_writeBytes {m : Memory} {a : Nat} {vs : List Byte} (hm : m.wf = true)
    (ha : a + vs.length ≤ Config.cap) : (m.writeBytes a vs).wf = true := by
  induction vs generalizing m a with
  | nil => exact hm
  | cons v vs ih =>
    simp only [List.length_cons] at ha
    exact ih (Memory.wf_write hm (by omega)) (by omega)

/-! ## Big-endian values -/

theorem bigEndian_pair (x y : Byte) : bigEndian [x, y] = x.toNat * 256 + y.toNat := by simp [bigEndian]

theorem bigEndian_triple (x y z : Byte) :
    bigEndian [x, y, z] = (x.toNat * 256 + y.toNat) * 256 + z.toNat := by simp [bigEndian]

/-- Three bytes are the preamble exactly when each of them is 0xAA. -/
theorem bigEndian_eq_preamble (x y z : Byte) :
    bigEndian [x, y, z] = Config.preambleValue ↔
      x = Config.preambleByte ∧ y = Config.preambleByte ∧ z = Config.preambleByte := by
  rw [bigEndian_triple]
  have hx := x.isLt; have hy := y.isLt; have hz := z.isLt
  simp only [← BitVec.toNat_inj]
  show _ = 11184810 ↔ _ = 170 ∧ _ = 170 ∧ _ = 170
  omega

end Sys2Proof.Machine
end

