-- ==== Sys2Proof/Laws/Ops.lean ====
section
/-! SUPPORT. One lemma per shared operation that says what it does in a state that meets the invariant. -/

namespace Sys2Proof.Machine

/-! ## The invariant, field by field -/

theorem Block.cursorsFit_iff {b : Block} : b.cursorsFit = true ↔ b.startN + b.lengthN ≤ 256 :=
  decide_eq_true_iff

theorem Block.syncHolds_iff {b : Block} :
    b.syncHolds = true ↔ (b.sync = true → 3 ≤ b.lengthN ∧ b.preambleAt 0 = some true) := by
  cases h : b.sync <;> simp [Block.syncHolds, h]

theorem Block.wellFormed_of_inv {b : Block} (h : b.Inv) : b.wellFormed = true := by
  simp [Block.wellFormed, h.2.1, h.2.2.2]

theorem Block.Inv.fits {b : Block} (h : b.Inv) : b.startN + b.lengthN ≤ 256 := Block.cursorsFit_iff.1 h.2.1

theorem Block.Inv.exists_view {b : Block} (h : b.Inv) : ∃ v, b.view? = some v := Option.isSome_iff_exists.1 h.2.2.1

theorem Block.view_length {b : Block} {v : List Byte} (h : b.view? = some v) : v.length = b.lengthN :=
  (Memory.readBytes_eq_some.1 h).1

theorem Block.view_read {b : Block} {v : List Byte} (h : b.view? = some v) {i : Nat} (hi : i < b.lengthN) :
    b.window.read (b.startN + i) = v[i]? := (Memory.readBytes_eq_some.1 h).2 i hi

theorem Block.view_isSome_of_eq {b : Block} {v : List Byte} (h : b.view? = some v) : b.view?.isSome = true := by simp [h]

/-! ## Cursors as natural numbers -/

theorem ofNat9_toNat {n : Nat} (h : n ≤ 256) : (BitVec.ofNat 9 n).toNat = n := by
  rw [BitVec.toNat_ofNat]; exact Nat.mod_eq_of_lt (by omega)

theorem Block.setStart_startN {b : Block} {n : Nat} (h : n ≤ 256) : (b.setStart n).startN = n := ofNat9_toNat h

theorem Block.setLength_lengthN {b : Block} {n : Nat} (h : n ≤ 256) : (b.setLength n).lengthN = n := ofNat9_toNat h

/-! ## The preamble -/

theorem hasPreamble_eq_true {v : List Byte} {j : Nat} :
    hasPreamble v j = true ↔ v[j]? = some 0xAA#8 ∧ v[j + 1]? = some 0xAA#8 ∧ v[j + 2]? = some 0xAA#8 := by
  simp [hasPreamble, and_assoc]

theorem hasPreamble_bound {v : List Byte} {j : Nat} (h : hasPreamble v j = true) : j + 3 ≤ v.length := by
  have := (List.getElem?_eq_some_iff.1 (hasPreamble_eq_true.1 h).2.2).1
  omega

theorem hasPreamble_drop (v : List Byte) (k j : Nat) : hasPreamble (v.drop k) j = hasPreamble v (k + j) := by
  simp [hasPreamble, List.getElem?_drop, Nat.add_assoc]

theorem hasPreamble_append {v w : List Byte} {j : Nat} (h : j + 3 ≤ v.length) :
    hasPreamble (v ++ w) j = hasPreamble v j := by
  simp [hasPreamble, List.getElem?_append_left (show j < v.length by omega),
    List.getElem?_append_left (show j + 1 < v.length by omega), List.getElem?_append_left (show j + 2 < v.length by omega)]

/-- The model's preamble check at offset `k` is the preamble check on the view. -/
theorem Block.preambleAt_view {b : Block} {v : List Byte} (h : b.view? = some v) {k : Nat} (hk : k + 3 ≤ b.lengthN) :
    b.preambleAt k = some (hasPreamble v k) := by
  have hl := Block.view_length h
  have hr : b.window.readBytes (b.startN + k) 3 = some ((v.drop k).take 3) := Memory.readBytes_within h hk
  obtain ⟨x, hx⟩ : ∃ x, v[k]? = some x := ⟨_, List.getElem?_eq_getElem (by omega)⟩
  obtain ⟨y, hy⟩ : ∃ y, v[k + 1]? = some y := ⟨_, List.getElem?_eq_getElem (by omega)⟩
  obtain ⟨z, hz⟩ : ∃ z, v[k + 2]? = some z := ⟨_, List.getElem?_eq_getElem (by omega)⟩
  have hd : (v.drop k).take 3 = [x, y, z] := by
    apply List.ext_getElem?
    intro i
    match i with
    | 0 => simpa [List.getElem?_take, List.getElem?_drop] using hx
    | 1 => simpa [List.getElem?_take, List.getElem?_drop] using hy
    | 2 => simpa [List.getElem?_take, List.getElem?_drop] using hz
    | i + 3 => simp
  have hb := bigEndian_eq_preamble x y z
  simp only [Block.preambleAt, Memory.memRead, hr, hd, Option.map_some, Option.some.injEq]
  rw [Bool.eq_iff_iff, beq_iff_eq, hb, hasPreamble_eq_true, hx, hy, hz]
  simp

/-! ## Views under the basic updates -/

/-- The view depends on the window inside it and on the two cursors only. -/
theorem Block.view_congr {a b : Block} (hs : a.startN = b.startN) (hl : a.lengthN = b.lengthN)
    (hr : ∀ i < b.lengthN, a.window.read (b.startN + i) = b.window.read (b.startN + i)) : a.view? = b.view? := by
  unfold Block.view?; rw [hs, hl]; exact Memory.readBytes_congr hr

/-- Discarding the first `k` bytes of the view. -/
theorem Block.view_discard {b : Block} {v : List Byte} (hv : b.view? = some v) (hf : b.startN + b.lengthN ≤ 256)
    {k : Nat} (hk : k ≤ b.lengthN) : (b.discard k).view? = some (v.drop k) := by
  have hl := Block.view_length hv
  have h1 : (b.discard k).startN = b.startN + k := ofNat9_toNat (by omega)
  have h2 : (b.discard k).lengthN = b.lengthN - k := ofNat9_toNat (by omega)
  have h3 := Memory.readBytes_within hv (show k + (b.lengthN - k) ≤ b.lengthN by omega)
  unfold Block.view?; rw [h1, h2]
  rw [List.take_of_length_le (by simp [hl])] at h3
  exact h3

theorem Block.discard_startN {b : Block} (hf : b.startN + b.lengthN ≤ 256) {k : Nat} (hk : k ≤ b.lengthN) :
    (b.discard k).startN = b.startN + k := ofNat9_toNat (by omega)

theorem Block.discard_lengthN {b : Block} (hf : b.startN + b.lengthN ≤ 256) {k : Nat} (hk : k ≤ b.lengthN) :
    (b.discard k).lengthN = b.lengthN - k := ofNat9_toNat (by omega)

/-! ## compact_core and the append -/

/-- compact_core moves the view to index 0 and changes nothing else (R62). -/
theorem Block.compactCore_spec {b : Block} {v : List Byte} (hv : b.view? = some v) :
    b.compactCore = .ok ((b.setWindow (b.window.writeBytes 0 v)).setStart 0) := by
  simp [Block.compactCore, hv]

theorem Block.compacted_view {b : Block} {v : List Byte} (hv : b.view? = some v) :
    ((b.setWindow (b.window.writeBytes 0 v)).setStart 0).view? = some v := by
  have hl := Block.view_length hv
  refine Memory.readBytes_eq_some.2 ⟨hl, fun i hi => ?_⟩
  have hi' : i < b.lengthN := hi
  show (b.window.writeBytes 0 v).read (0 + i) = v[i]?
  rw [Memory.read_writeBytes, if_pos (by omega)]
  simp

/-- The append writes one byte at the tail and lengthens the view by it (R61). -/
theorem Block.appendByte_spec {b : Block} (hf : b.startN + b.lengthN < 256) (x : Byte) :
    b.appendByte x = .ok ((b.setWindow (b.window.write (b.startN + b.lengthN) x)).setLength (b.lengthN + 1)) := by
  simp [Block.appendByte, Block.memWrite, Block.tail, hf]

theorem Block.appended_view {b : Block} {v : List Byte} (hv : b.view? = some v) (hf : b.startN + b.lengthN < 256)
    (x : Byte) : ((b.setWindow (b.window.write (b.startN + b.lengthN) x)).setLength (b.lengthN + 1)).view? =
      some (v ++ [x]) := by
  have hl := Block.view_length hv
  have h2 : ((b.setWindow (b.window.write (b.startN + b.lengthN) x)).setLength (b.lengthN + 1)).lengthN = b.lengthN + 1 :=
    ofNat9_toNat (by omega)
  unfold Block.view?; rw [h2]
  refine Memory.readBytes_eq_some.2 ⟨by simp [hl], fun i hi => ?_⟩
  show (b.window.write (b.startN + b.lengthN) x).read (b.startN + i) = _
  rw [Memory.read_write]
  by_cases hi2 : i = b.lengthN
  · subst hi2; simp [← hl]
  · rw [if_neg (by omega), Block.view_read hv (by omega), List.getElem?_append_left (by omega)]

/-! ## scan_core -/

/-- The scan loop from candidate `k` on, when the candidates before `k` failed, ends as the closed form says (R65). -/
theorem Block.scanLoop_spec {b : Block} {v : List Byte} (hv : b.view? = some v) :
    ∀ fuel k, v.length ≤ fuel + k → k ≤ v.length - 2 → (∀ j < k, hasPreamble v j = false) →
      ∃ k' f, b.scanLoop fuel k = .ok ⟨k', f⟩ ∧ ScanOutcome v k' f := by
  have hl := Block.view_length hv
  have none_after : ∀ {k}, v.length < k + 3 → k ≤ v.length - 2 → (∀ j < k, hasPreamble v j = false) →
      ScanOutcome v k false := by
    intro k h1 h2 hn
    simp only [ScanOutcome, Bool.false_eq_true, if_false]
    refine ⟨by omega, fun j => ?_⟩
    by_contra hj
    have hj' := hasPreamble_bound (by simpa using hj)
    exact hj (hn j (by omega))
  intro fuel
  induction fuel with
  | zero =>
    intro k h1 h2 hn
    exact ⟨k, false, rfl, none_after (by omega) h2 hn⟩
  | succ fuel ih =>
    intro k h1 h2 hn
    simp only [Block.scanLoop]
    by_cases h3 : 3 ≤ b.lengthN - k
    · rw [if_pos h3, Block.preambleAt_view hv (by omega)]
      cases hp : hasPreamble v k with
      | true => exact ⟨k, true, rfl, by simpa [ScanOutcome] using ⟨hp, hn⟩⟩
      | false =>
        refine ih (k + 1) (by omega) (by omega) fun j hj => ?_
        by_cases hjk : j = k
        · exact hjk ▸ hp
        · exact hn j (by omega)
    · rw [if_neg h3]
      exact ⟨k, false, rfl, none_after (by omega) h2 hn⟩

/-- scan_core is the closed form (R64, R65). -/
theorem Block.scanCore_spec {b : Block} {v : List Byte} (hv : b.view? = some v) :
    ∃ k f, b.scanCore = .ok (b.discard k, f) ∧ ScanOutcome v k f := by
  have hl := Block.view_length hv
  obtain ⟨k, f, h, ho⟩ := Block.scanLoop_spec hv b.lengthN 0 (by omega) (Nat.zero_le _) (by simp)
  exact ⟨k, f, by simp [Block.scanCore, h], ho⟩

theorem ScanOutcome.found {v : List Byte} {k : Nat} (h : ScanOutcome v k true) :
    hasPreamble v k = true ∧ ∀ j < k, hasPreamble v j = false := by simpa [ScanOutcome] using h

theorem ScanOutcome.notFound {v : List Byte} {k : Nat} (h : ScanOutcome v k false) :
    k = v.length - 2 ∧ ∀ j, hasPreamble v j = false := by simpa [ScanOutcome] using h

/-- A scan discards no more than the view holds. -/
theorem ScanOutcome.le {v : List Byte} {k : Nat} {f : Bool} (h : ScanOutcome v k f) : k ≤ v.length - 2 := by
  cases f with
  | true => have := hasPreamble_bound h.found.1; omega
  | false => exact Nat.le_of_eq h.notFound.1

/-- A view has one scan outcome. -/
theorem ScanOutcome.unique {v : List Byte} {k k' : Nat} {f f' : Bool} (h : ScanOutcome v k f)
    (h' : ScanOutcome v k' f') : k = k' ∧ f = f' := by
  cases f <;> cases f'
  · exact ⟨h.notFound.1.trans h'.notFound.1.symm, rfl⟩
  · have := h.notFound.2 k'; rw [h'.found.1] at this; simp at this
  · have := h'.notFound.2 k; rw [h.found.1] at this; simp at this
  · refine ⟨?_, rfl⟩
    rcases Nat.lt_trichotomy k k' with hlt | heq | hgt
    · have := h'.found.2 k hlt; rw [h.found.1] at this; simp at this
    · exact heq
    · have := h.found.2 k' hgt; rw [h'.found.1] at this; simp at this

/-! ## extract -/

theorem bytePair_toNat (x y : Byte) : BitVec.ofNat 16 (x.toNat * 256 + y.toNat) = (x ++ y : BitVec 16) := by
  apply BitVec.eq_of_toNat_eq
  have hx := x.isLt; have hy := y.isLt
  rw [BitVec.toNat_append, BitVec.toNat_ofNat, Nat.mod_eq_of_lt (by omega), Nat.shiftLeft_eq]
  rw [show x.toNat * 2 ^ 8 = 2 ^ 8 * x.toNat from Nat.mul_comm _ _, ← Nat.two_pow_add_eq_or_of_lt (by omega)]
  omega

theorem Block.sampleAt_view {b : Block} {v : List Byte} (h : b.view? = some v) {j : Nat} (hj : 5 + 2 * j ≤ b.lengthN) :
    b.sampleAt j = some (bytePair v (3 + 2 * j)) := by
  have hl := Block.view_length h
  have hr : b.window.readBytes (b.startN + 3 + 2 * j) 2 = some ((v.drop (3 + 2 * j)).take 2) := by
    rw [Nat.add_assoc]; exact Memory.readBytes_within h (by omega)
  have h0 : 3 + 2 * j < v.length := by omega
  have h1 : 3 + 2 * j + 1 < v.length := by omega
  have hd : (v.drop (3 + 2 * j)).take 2 = [v[3 + 2 * j], v[3 + 2 * j + 1]] := by
    rw [List.drop_eq_getElem_cons h0, List.drop_eq_getElem_cons h1]; rfl
  simp only [Block.sampleAt, Memory.memRead, hr, hd, Option.map_some, bigEndian_pair, bytePair_toNat, bytePair,
    List.getD_eq_getElem?_getD, List.getElem?_eq_getElem h0, List.getElem?_eq_getElem h1, Option.getD_some]

/-- The extractor reads the five samples of the frame at the start of the view (R6, R68). -/
theorem Block.readSamples_view {b : Block} {v : List Byte} (h : b.view? = some v) (hl : 13 ≤ b.lengthN) :
    b.readSamples = some (frameSamples v) := by
  simp [Block.readSamples, Block.sampleAt_view h (show 5 + 2 * 0 ≤ b.lengthN by omega),
    Block.sampleAt_view h (show 5 + 2 * 1 ≤ b.lengthN by omega), Block.sampleAt_view h (show 5 + 2 * 2 ≤ b.lengthN by omega),
    Block.sampleAt_view h (show 5 + 2 * 3 ≤ b.lengthN by omega), Block.sampleAt_view h (show 5 + 2 * 4 ≤ b.lengthN by omega),
    frameSamples]

theorem Block.extract_view {b : Block} {v : List Byte} (h : b.view? = some v) (hl : 13 ≤ b.lengthN) :
    b.extract = .ok (b.storeSamples (frameSamples v), frameSamples v) := by
  simp [Block.extract, Block.readSamples_view h hl]

end Sys2Proof.Machine
end

