-- ==== Sys2Proof/Laws/Commands.lean ====
section
/-! SUPPORT. What each command's reply is, given the view: one lemma per command that has cases. Proofs about exec cite
these and do not unfold the replies again. -/

namespace Sys2Proof.Machine

/-- The reply of each command on the block, so that a fact about all commands splits once. -/
def replyOf (i : Instr) (b : Block) : Except Fault Reply :=
  match i with
  | .nop      => nopReply b
  | .clear    => clearReply b
  | .write x  => writeReply x b
  | .scan     => scanReply b
  | .decode   => decodeReply b
  | .cycle    => cycleReply b
  | .compact  => compactReply b
  | .rdreg n  => rdregReply n b
  | .rdview i => rdviewReply i b

/-- Every command is a transaction on the block (30_encoding.md R50). -/
theorem exec_eq_transact (i : Instr) (s : State) : exec i s = s.transact (replyOf i s.block) := by cases i <;> rfl

/-- A command that completes has answered its reply. -/
theorem exec_eq_next {i : Instr} {s t : State} :
    exec i s = .next t ↔ ∃ r, replyOf i s.block = .ok r ∧ t = s.answer r := by
  rw [exec_eq_transact]
  cases replyOf i s.block with
  | error f => simp [State.transact]
  | ok r => simp [State.transact, eq_comm]

/-- WRITE with the tail before the end of the window (R61 case a). -/
theorem writeReply_append {b : Block} (h : b.startN + b.lengthN < 256) (x : Byte) :
    writeReply x b =
      .ok (finish ((b.setWindow (b.window.write (b.startN + b.lengthN) x)).setLength (b.lengthN + 1)) .ok) := by
  have h1 : ¬ b.tail = Config.cap := Nat.ne_of_lt h
  rw [writeReply, if_neg h1, writeAppend, Block.appendByte_spec h]

/-- WRITE with the view filling the window (R61 case c). -/
theorem writeReply_overflow {b : Block} (h0 : b.startN = 0) (h : b.lengthN = 256) (x : Byte) :
    writeReply x b = .ok (raise b .overflow) := by
  have h1 : b.tail = Config.cap := by simp [Block.tail, h0, h]
  rw [writeReply, if_pos h1, if_pos h0]

/-- WRITE with the tail at the end of the window and START > 0: the window is compacted first (R61 case b). -/
theorem writeReply_compact {b : Block} {v : List Byte} (hv : b.view? = some v) (h0 : 0 < b.startN)
    (h : b.startN + b.lengthN = 256) (x : Byte) :
    writeReply x b = .ok (finish ((((b.setWindow (b.window.writeBytes 0 v)).setStart 0).setWindow
      ((b.window.writeBytes 0 v).write b.lengthN x)).setLength (b.lengthN + 1)) .ok) := by
  have h1 : b.tail = Config.cap := h
  have hs : ((b.setWindow (b.window.writeBytes 0 v)).setStart 0).startN = 0 := rfl
  have hl : ((b.setWindow (b.window.writeBytes 0 v)).setStart 0).lengthN = b.lengthN := rfl
  rw [writeReply, if_pos h1, if_neg (by omega), Block.compactCore_spec hv]
  show writeAppend x _ = _
  rw [writeAppend, Block.appendByte_spec (by omega), hs, hl, Nat.zero_add]
  rfl

/-- COMPACT (R62). -/
theorem compactReply_spec {b : Block} {v : List Byte} (hv : b.view? = some v) :
    compactReply b = .ok (finish ((b.setWindow (b.window.writeBytes 0 v)).setStart 0) .ok) := by
  rw [compactReply, Block.compactCore_spec hv]

/-- SCAN (R66). -/
theorem scanReply_spec {b : Block} {v : List Byte} (hv : b.view? = some v) :
    ∃ k f, ScanOutcome v k f ∧
      scanReply b = .ok (finish ((b.discard k).setSync f) (if f then .found else .notFound)) := by
  obtain ⟨k, f, hs, ho⟩ := Block.scanCore_spec hv
  refine ⟨k, f, ho, ?_⟩
  cases f <;> simp [scanReply, hs]

/-- DECODE (R69). -/
theorem decodeReply_spec {b : Block} {v : List Byte} (hv : b.view? = some v) :
    decodeReply b = .ok (
      if b.lengthN < 13 then finish (b.setSvalid false) .incomplete
      else if hasPreamble v 0 then
        finishWith ((b.setSvalid false).storeSamples (frameSamples v)) .decoded (frameSamples v)
      else finish ((b.setSvalid false).setCounters b.counters.addMisalign) .misaligned) := by
  have hv' : (b.setSvalid false).view? = some v := hv
  unfold decodeReply
  by_cases h : b.lengthN < 13
  · rw [if_pos h]; exact if_pos h
  · rw [if_neg h]
    refine (if_neg h).trans ?_
    rw [Block.preambleAt_view hv' (show 0 + 3 ≤ b.lengthN by omega)]
    cases hp : hasPreamble v 0 with
    | true => simp [decodeFrame, Block.extract_view hv' (show 13 ≤ b.lengthN by omega)]
    | false => simp

/-- The cursors CYCLE works on after its scan. -/
def cycleScanned (b : Block) (k : Nat) (f : Bool) : Block := ((b.setSvalid false).discard k).setSync f

/-- CYCLE (R71): the MISALIGNED branch does not appear, since the scan has just found the preamble (R73). -/
theorem cycleReply_spec {b : Block} {v : List Byte} (hv : b.view? = some v) (hf : b.startN + b.lengthN ≤ 256) :
    ∃ k f, ScanOutcome v k f ∧ cycleReply b = .ok (
      if f then
        if b.lengthN - k < 13 then finish (cycleScanned b k true) .incomplete
        else finishWith ((cycleScanned b k true).storeSamples (frameSamples (v.drop k))).clearWindow .decoded
          (frameSamples (v.drop k))
      else finish (cycleScanned b k false) .notFound) := by
  have hl := Block.view_length hv
  have hv' : (b.setSvalid false).view? = some v := hv
  obtain ⟨k, f, hs, ho⟩ := Block.scanCore_spec hv'
  refine ⟨k, f, ho, ?_⟩
  have hk := ho.le
  cases f with
  | false => simp [cycleReply, hs, cycleScanned]
  | true =>
    have hvd : (cycleScanned b k true).view? = some (v.drop k) :=
      Block.view_discard hv' hf (show k ≤ (b.setSvalid false).lengthN from Nat.le_trans hk (by
        show v.length - 2 ≤ b.lengthN; omega))
    have hld : (cycleScanned b k true).lengthN = b.lengthN - k :=
      Block.discard_lengthN (b := b.setSvalid false) hf (Nat.le_trans hk (by show v.length - 2 ≤ b.lengthN; omega))
    have hp : hasPreamble (v.drop k) 0 = true := by rw [hasPreamble_drop]; exact ho.found.1
    have h1 : cycleReply b = cycleSynced (cycleScanned b k true) := by simp [cycleReply, hs, cycleScanned]
    rw [h1, cycleSynced, hld]
    by_cases h : b.lengthN - k < 13
    · simp [h]
    · have h3 : 0 + 3 ≤ (cycleScanned b k true).lengthN := by omega
      rw [if_neg h, Block.preambleAt_view hvd h3, hp]
      simp [h, cycleFrame, Block.extract_view hvd (show 13 ≤ (cycleScanned b k true).lengthN by omega)]

/-- RDVIEW (R75). -/
theorem rdviewReply_spec {b : Block} {v : List Byte} (hv : b.view? = some v) (i : Byte) :
    rdviewReply i b = .ok (respond b ((v.getD i.toNat 0#8).setWidth 32)) := by
  have hl := Block.view_length hv
  unfold rdviewReply Block.readView
  by_cases h : i.toNat < b.lengthN
  · have hi : i.toNat < v.length := by omega
    simp [h, Block.view_read hv h, List.getElem?_eq_getElem hi]
  · have hi : v.length ≤ i.toNat := by omega
    simp [h, List.getElem?_eq_none hi]

end Sys2Proof.Machine
end

