-- ==== Sys2Proof/Laws/Decode.lean ====
section
/-! SUPPORT. The bits of a packed command word, and what the fields of a decoded word are. -/

namespace Sys2Proof

/-- A word is its three fields side by side (30_encoding.md R52). -/
theorem fields_ext (w : CmdWord) : w = w.extractLsb' 8 8 ++ w.extractLsb' 4 4 ++ w.extractLsb' 0 4 := by
  apply BitVec.eq_of_getLsbD_eq
  intro i hi
  simp only [BitVec.getLsbD_append, BitVec.getLsbD_extractLsb']
  rcases Nat.lt_or_ge i 4 with h | h
  · simp [h]
  · rcases Nat.lt_or_ge i 8 with h' | h'
    · simp [show ¬ i < 4 by omega, show i - 4 < 4 by omega, show 4 + (i - 4) = i by omega]
    · simp [show ¬ i < 4 by omega, show ¬ i - 4 < 4 by omega, show i - 4 - 4 < 8 by omega,
        show 8 + (i - 4 - 4) = i by omega]

theorem packFields_bit (op : BitVec 4) (imm : Byte) (i : Nat) : (packFields op imm).getLsbD i =
    if i < 4 then op.getLsbD i else if i < 8 then false else imm.getLsbD (i - 8) := by
  show (imm ++ 0#4 ++ op : BitVec (8 + 4 + 4)).getLsbD i = _
  rw [BitVec.getLsbD_append, BitVec.getLsbD_append]
  by_cases h : i < 4
  · simp [h]
  · by_cases h' : i < 8
    · simp [h, h', show i - 4 < 4 by omega]
    · simp [h, h', show ¬ i - 4 < 4 by omega, show i - 4 - 4 = i - 8 by omega]

@[simp] theorem fieldsOf_packFields (op : BitVec 4) (imm : Byte) : fieldsOf (packFields op imm) = ⟨op, 0#4, imm⟩ := by
  simp only [fieldsOf, RawCommand.mk.injEq]
  refine ⟨?_, ?_, ?_⟩ <;> apply BitVec.eq_of_getLsbD_eq <;> intro i hi <;>
    rw [BitVec.getLsbD_extractLsb', packFields_bit]
  · simp [hi]
  · simp [hi, show 4 + i < 8 by omega]
  · simp [hi, show ¬ 8 + i < 4 by omega]

theorem packFields_fieldsOf {w : CmdWord} (h : (fieldsOf w).rsv = 0#4) :
    w = packFields (fieldsOf w).op (fieldsOf w).imm := by
  have h' : w.extractLsb' 4 4 = 0#4 := h
  conv_lhs => rw [fields_ext w, h']
  rfl

theorem decodePlain_ok {imm : Byte} {i j : Instr} (h : decodePlain imm i = .ok j) : imm = 0#8 ∧ i = j := by
  unfold decodePlain at h; split at h <;> simp_all

/-- Accepted fields have RSV = 0, and their OP and IMM are those of the command they decode to. -/
theorem decodeFields_ok {c : RawCommand} {i : Instr} (h : decodeFields c = .ok i) :
    c.rsv = 0#4 ∧ encode i = packFields c.op c.imm := by
  obtain ⟨op, rsv, imm⟩ := c
  unfold decodeFields at h
  simp only at h
  by_cases hr : rsv = 0#4
  · rw [if_pos hr] at h
    refine ⟨hr, ?_⟩
    obtain ⟨n, hn⟩ : ∃ n, op.toNat = n := ⟨_, rfl⟩
    have hlt : n < 16 := hn ▸ BitVec.isLt _
    have key : op = BitVec.ofNat 4 n := by
      apply BitVec.eq_of_toNat_eq; rw [BitVec.toNat_ofNat, hn, Nat.mod_eq_of_lt hlt]
    rw [hn] at h; simp only [key]
    interval_cases n <;> simp only at h <;> first
      | exact (by obtain ⟨h1, rfl⟩ := decodePlain_ok h; subst h1; rfl)
      | exact (by injection h with h; subst h; rfl)
      | exact (by injection h)
  · rw [if_neg hr] at h; simp at h

end Sys2Proof
end

