-- ==== Sys2Proof/Laws/PerInstr.lean ====
section
/-! SUPPORT. One statement about each command as syntax: the word it encodes to lies in its own row of the opcode map
(30_encoding.md R53), in no other one, and has legal fields (R55). -/

namespace Sys2Proof.Laws.RowMatch

/-- The command's row is in the map, its word matches that row and no other row, and the word's fields pass the three
checks. -/
def Statement (i : Instr) : Prop :=
  rowOf i ∈ opcodeTable ∧ opcodeTable.filter (fun r => r.covers (encode i)) = [rowOf i] ∧
    (fieldsOf (encode i)).wellFormed = true

theorem nop : Statement .nop := by unfold Statement; decide
theorem clear : Statement .clear := by unfold Statement; decide
theorem write (data : Byte) : Statement (.write data) := by unfold Statement; revert data; decide +kernel
theorem scan : Statement .scan := by unfold Statement; decide
theorem decode : Statement .decode := by unfold Statement; decide
theorem cycle : Statement .cycle := by unfold Statement; decide
theorem compact : Statement .compact := by unfold Statement; decide
theorem rdreg (index : Byte) : Statement (.rdreg index) := by unfold Statement; revert index; decide +kernel
theorem rdview (index : Byte) : Statement (.rdview index) := by unfold Statement; revert index; decide +kernel

end Sys2Proof.Laws.RowMatch
end

