-- ==== Sys2Proof/Tests/Slice0.lean ====
section
/-! SUPPORT. The model's own tests. Every expected value is taken from the spec: the bit patterns of 30_encoding.md R53, the
examples of R57 and the vectors of 95_test_vectors.md, named in each comment. After them, for every obligation with
hypotheses, a concrete state and operands that meet all of them together. -/

namespace Sys2Proof.Tests

open Sys2Proof Sys2Proof.Machine

/-! ## The checks of WellFormed refuse an ill-formed term each -/

theorem test_unknown_op_refused : (RawCommand.mk 9#4 0#4 0#8).opKnown = false ∧
    (RawCommand.mk 9#4 0#4 0#8).wellFormed = false := by decide

theorem test_reserved_field_refused : (RawCommand.mk 2#4 1#4 0#8).rsvClear = false ∧
    (RawCommand.mk 2#4 1#4 0#8).wellFormed = false := by decide

theorem test_unused_immediate_refused : (RawCommand.mk 0#4 0#4 1#8).immAllowed = false ∧
    (RawCommand.mk 0#4 0#4 1#8).wellFormed = false := by decide

theorem test_legal_fields_accepted : (RawCommand.mk 2#4 0#4 0xAA#8).wellFormed = true ∧
    (RawCommand.mk 6#4 0#4 0#8).wellFormed = true := by decide

/-! ## Decoding: the bit patterns of R53, bit 15 leftmost -/

theorem test_decode_nop : decode 0b0000000000000000#16 = .ok .nop := by decide
theorem test_decode_clear : decode 0b0000000000000001#16 = .ok .clear := by decide
theorem test_decode_write : decode 0b1010101000000010#16 = .ok (.write 0b10101010#8) := by decide
theorem test_decode_scan : decode 0b0000000000000011#16 = .ok .scan := by decide
theorem test_decode_decode : decode 0b0000000000000100#16 = .ok .decode := by decide
theorem test_decode_cycle : decode 0b0000000000000101#16 = .ok .cycle := by decide
theorem test_decode_compact : decode 0b0000000000000110#16 = .ok .compact := by decide
theorem test_decode_rdreg : decode 0b0001001000000111#16 = .ok (.rdreg 0b00010010#8) := by decide
theorem test_decode_rdview : decode 0b1111111100001000#16 = .ok (.rdview 0b11111111#8) := by decide

/-- The words of EX1 to EX8 are illegal, EX10's is not. -/
theorem test_illegal_words :
    [0x0009#16, 0x000F#16, 0xFFFF#16, 0x0100#16, 0x0012#16, 0x0017#16, 0x0104#16, 0x0105#16].map isLegal =
      [false, false, false, false, false, false, false, false] ∧ isLegal 0xFF08#16 = true := by decide

theorem test_table_word : decodeTableWord 16 0xAA02 = some (.write 0xAA#8) ∧ decodeTableWord 16 0x0009 = none := by
  decide

/-! ## Scripts: the examples of R57, and a line of P2 -/

theorem test_script_write : (parseLine "WRITE 0xAA").map scriptWords = some [0xAA02#16] := by decide
theorem test_script_rdreg : (parseLine "RDREG SAMPLE2 ; the third sample").map scriptWords = some [0x1207#16] := by decide
theorem test_script_rdview : (parseLine "RDVIEW 3").map scriptWords = some [0x0308#16] := by decide
theorem test_script_cycle : (parseLine "CYCLE").map scriptWords = some [0x0005#16] := by decide
theorem test_script_word : (parseLine ".word 0x0009").map scriptWords = some [0x0009#16] := by decide
theorem test_script_poll : (parseLine "POLL 0xAA, 0x01").map scriptWords = some [0xAA02#16, 0x0102#16, 0x0005#16] := by
  decide
theorem test_script_feedN : (parseLine "FEEDN 3, 0x00").map scriptWords = some [0x0002#16, 0x0002#16, 0x0002#16] := by
  decide
theorem test_script_refuses : parseLine "WRITE 256" = none ∧ parseLine "CLEAR 1" = none := by decide

/-! ## Small states -/

/-- As at reset, but with the view `v` standing at index `start`. -/
def holding (start : Nat) (v : List Byte) : State :=
  { State.reset with
    block := ((Block.reset.setWindow (Memory.writeBytes [] start v)).setStart start).setLength v.length }

/-- The same with SYNC = 1. -/
def synced (start : Nat) (v : List Byte) : State :=
  let s := holding start v
  { s with block := s.block.setSync true }

/-- The preamble. -/
def pre : List Byte := [0xAA#8, 0xAA#8, 0xAA#8]

/-- The frame F1 of 95_test_vectors.md. -/
def frame1 : List Byte :=
  pre ++ [0x00#8, 0x0A#8, 0x00#8, 0x14#8, 0x00#8, 0x1E#8, 0x00#8, 0x28#8, 0x00#8, 0x32#8]

/-- The samples of F1: 10, 20, 30, 40, 50. -/
def samples1 : Samples := ⟨10#16, 20#16, 30#16, 40#16, 50#16⟩

/-- The frame of S6, its first preamble byte corrupted. -/
def corrupted : List Byte := 0xAB#8 :: frame1.drop 1

/-- The same state with the samples of F1 valid and delivered. -/
def delivered (s : State) : State :=
  { s with block := (s.block.setSamples samples1).setSvalid true, frames := s.frames ++ [samples1] }

/-- The state after a step or a command, if it goes on. -/
def nextOf (o : Host.Outcome State Fault Refusal) : Option State :=
  match o with
  | .next t    => some t
  | .fault _   => none
  | .refused _ => none

/-- The response of the last command, START, LENGTH and the view. -/
def seen (o : Host.Outcome State Fault Refusal) : Option (Option Word × Nat × Nat × Option (List Byte)) :=
  (nextOf o).map fun t => (t.responses.getLast?, t.block.startN, t.block.lengthN, t.block.view?)

theorem holding_view {start : Nat} {v : List Byte} (h : start + v.length ≤ 256) :
    (holding start v).block.view? = some v := by
  have h1 : (holding start v).block.startN = start := ofNat9_toNat (by omega)
  have h2 : (holding start v).block.lengthN = v.length := ofNat9_toNat (by omega)
  unfold Block.view?
  rw [h1, h2, Memory.readBytes_eq_some]
  refine ⟨rfl, fun i hi => ?_⟩
  show (Memory.writeBytes [] start v).read (start + i) = _
  rw [Memory.read_writeBytes, if_pos (by omega)]
  simp

theorem holding_inv {start : Nat} {v : List Byte} (h : start + v.length ≤ 256) : (holding start v).Inv := by
  have h1 : (holding start v).block.startN = start := ofNat9_toNat (by omega)
  have h2 : (holding start v).block.lengthN = v.length := ofNat9_toNat (by omega)
  refine ⟨⟨Memory.wf_writeBytes (m := []) rfl h, Block.cursorsFit_iff.2 (by omega), ?_, rfl⟩, by intro hs; cases hs⟩
  simp [holding_view h]

/-- A view of `n` bytes 00 at index `start` (as in SC12 and WO9), sealed so that no test unfolds a long list. -/
@[irreducible] def zeros (start n : Nat) : State := holding start (List.replicate n 0#8)

theorem zeros_inv {start n : Nat} (h : start + n ≤ 256) : (zeros start n).Inv := by
  unfold zeros; exact holding_inv (by rw [List.length_replicate]; exact h)

theorem zeros_view {start n : Nat} (h : start + n ≤ 256) :
    (zeros start n).block.view? = some (List.replicate n 0#8) := by
  unfold zeros; exact holding_view (by rw [List.length_replicate]; exact h)

theorem zeros_startN {start n : Nat} (h : start + n ≤ 256) : (zeros start n).block.startN = start := by
  unfold zeros; exact ofNat9_toNat (by omega)

theorem zeros_lengthN {start n : Nat} (h : start + n ≤ 256) : (zeros start n).block.lengthN = n := by
  rw [← Block.view_length (zeros_view h), List.length_replicate]

/-- A WRITE to the full window overflows. -/
theorem full_overflows (x : Byte) :
    ∃ t, exec (.write x) (zeros 0 256) = .next t ∧ t.block.result = .overflow :=
  ⟨_, exec_eq_next.2 ⟨_, writeReply_overflow (zeros_startN (by decide)) (zeros_lengthN (by decide)) x, rfl⟩, rfl⟩

theorem full_step_overflows :
    ∃ t, step ((zeros 0 256).setPending [.command 0x1202#16]) = .next t ∧ t.block.result = .overflow := by
  have hw : (zeros 0 256).block.wellFormed = true := Block.wellFormed_of_inv (zeros_inv (by decide)).1
  refine ⟨(zeros 0 256).setPending [] |>.answer (raise (zeros 0 256).block .overflow), ?_, rfl⟩
  show runWord 0x1202#16 ((zeros 0 256).setPending []) = _
  unfold runWord
  rw [if_pos (by exact hw), show decode 0x1202#16 = .ok (.write 0x12#8) by decide]
  exact exec_eq_next.2 ⟨_, writeReply_overflow (zeros_startN (by decide)) (zeros_lengthN (by decide)) _, rfl⟩

/-! ## One step of each command -/

/-- WO2: NOP clears a stale RESULT. -/
theorem test_nop_clears_result :
    let s := { State.reset with block := Block.reset.setResult .illegal }
    exec .nop s = .next { s with block := Block.reset, responses := [0#32] } := rfl

/-- WO4: CLEAR keeps SVALID and the samples, drops SYNC and the view. -/
theorem test_clear_keeps_samples :
    (nextOf (exec .clear (delivered (synced 0 (pre ++ [0x00#8, 0x01#8, 0x02#8, 0x03#8]))))).map
      (fun t => (t.block.lengthN, t.block.sync, t.block.svalid, t.block.samples)) =
        some (0, false, true, samples1) := by decide

/-- WO8: WRITE compacts when the tail is at the end of the window. -/
theorem test_write_compacts :
    seen (exec (.write 0xAA#8) (holding 254 [0x00#8, 0x00#8])) =
      some (some 0#32, 0, 3, some [0x00#8, 0x00#8, 0xAA#8]) := by decide

/-- WO16: the overflow counter wraps, the byte is dropped. -/
theorem test_write_overflow_wraps :
    let b := { Block.reset with length := 256#9, counters := ⟨0#32, 0#32, 0#32, 0xFFFFFFFF#32, 0#32⟩ }
    (nextOf (exec (.write 0#8) { State.reset with block := b })).map
      (fun t => (t.responses, t.block.lengthN, t.block.window, t.block.counters.overflow)) =
        some ([6#32], 256, [], 0#32) := by decide

/-- WO14: an overlapping move. -/
theorem test_compact_overlapping :
    (nextOf (exec .compact (holding 1 [0x01#8, 0x02#8, 0x03#8]))).map
      (fun t => (t.block.startN, t.block.window)) =
        some (0, [(0, 0x01#8), (1, 0x02#8), (2, 0x03#8), (3, 0x03#8)]) := by decide

/-- WO15: COMPACT keeps SYNC and the view. -/
theorem test_compact_keeps_sync :
    (nextOf (exec .compact (synced 3 pre))).map (fun t => (t.block.startN, t.block.sync, t.block.view?)) =
      some (0, true, some pre) := by decide

/-- SC7: three bytes are discarded before the preamble. -/
theorem test_scan_discards_garbage :
    seen (exec .scan (holding 0 ([0xAA#8, 0xAA#8, 0x00#8] ++ pre))) = some (some 2#32, 3, 3, some pre) := by decide

/-- SC15: nothing found, two bytes kept, DISCARD_COUNT wraps. -/
theorem test_scan_not_found_wraps :
    let s := holding 0 [0x00#8, 0x00#8, 0x00#8, 0xAA#8, 0xAA#8]
    let b := s.block.setCounters ⟨0#32, 0xFFFFFFFF#32, 0#32, 0#32, 0#32⟩
    (nextOf (exec .scan { s with block := b })).map
      (fun t => (t.responses, t.block.view?, t.block.counters.discard)) =
        some ([1#32], some [0xAA#8, 0xAA#8], 2#32) := by decide

/-- DE9: each sample is big-endian; the frame stays in the view. -/
theorem test_decode_big_endian :
    (nextOf (exec .decode (holding 3 (pre ++
        [0x12#8, 0x34#8, 0x56#8, 0x78#8, 0x9A#8, 0xBC#8, 0xDE#8, 0xF0#8, 0x01#8, 0x23#8])))).map
      (fun t => (t.responses, t.block.lengthN, t.frames)) =
        some ([4#32], 13, [⟨0x1234#16, 0x5678#16, 0x9ABC#16, 0xDEF0#16, 0x0123#16⟩]) := by decide

/-- DE4 with valid samples before: MISALIGNED drops SVALID, keeps the samples and counts one. -/
theorem test_decode_misaligned :
    (nextOf (exec .decode (delivered (holding 0 corrupted)))).map
      (fun t => (t.responses, t.block.svalid, t.block.samples, t.block.counters.misalign)) =
        some ([5#32], false, samples1, 1#32) := by decide

/-- CY6: garbage, then a frame; the window is emptied. -/
theorem test_cycle_decodes :
    (nextOf (exec .cycle (holding 0 ([0x12#8, 0x34#8] ++ frame1)))).map
      (fun t => (t.responses, t.block.startN, t.block.lengthN, t.block.counters.discard, t.frames)) =
        some ([4#32], 0, 0, 2#32, [samples1]) := by decide

/-- S6 and CY2: no preamble; eleven bytes are discarded and two kept. -/
theorem test_cycle_not_found :
    seen (exec .cycle (holding 0 corrupted)) = some (some 1#32, 11, 2, some [0x00#8, 0x32#8]) := by decide

/-- SC17's end: STATUS of a FRAME_READY block. -/
theorem test_rdreg_status :
    let s := synced 1 frame1
    (nextOf (exec (.rdreg 0x00#8) { s with block := s.block.setResult .found })).map (·.responses) =
      some [0x29#32] := by decide

/-- RG14: FREE and ROOM. -/
theorem test_rdreg_free_room :
    (nextOf (exec (.rdreg 0x03#8) (holding 254 [0x00#8, 0x00#8]))).map (·.responses) = some [0#32] ∧
    (nextOf (exec (.rdreg 0x0A#8) (holding 254 [0x00#8, 0x00#8]))).map (·.responses) = some [0xFE#32] := by decide

/-- RG10: an index outside the view reads 0. -/
theorem test_rdview_outside :
    (nextOf (exec (.rdview 3#8) (holding 0 [0x00#8, 0x00#8, 0xAA#8]))).map (·.responses) = some [0#32] := by decide

/-- RG11: the index counts from START. -/
theorem test_rdview_relative :
    (nextOf (exec (.rdview 1#8) (holding 11 [0x00#8, 0x32#8]))).map (·.responses) = some [0x32#32] := by decide

/-- EX8: an illegal CYCLE neither scans nor decodes. -/
theorem test_illegal_cycle :
    let s := holding 0 frame1
    step (s.withFetchWord 16 0x0105) = .next { s with
      responses := [7#32]
      block := (s.block.setResult .illegal).setCounters ⟨0#32, 0#32, 0#32, 0#32, 1#32⟩ } := rfl

/-- RS1: reset forgets the block, not the events already emitted. -/
theorem test_reset :
    step ((delivered (synced 0 (frame1.take 12))).setPending [.reset]) =
      .next { State.reset with frames := [samples1] } := rfl

/-! ## Witnesses: states and operands that meet the hypotheses of each obligation together -/

/-- A scan's outcome on a short view, by trying every offset. -/
theorem outcome_notFound {v : List Byte} (h : ∀ j < v.length, hasPreamble v j = false) :
    ScanOutcome v (v.length - 2) false := by
  refine ⟨rfl, fun j => ?_⟩
  rcases Nat.lt_or_ge j v.length with hj | hj
  · exact h j hj
  · simp [hasPreamble, List.getElem?_eq_none hj]

theorem outcome_found {v : List Byte} {k : Nat} (h : hasPreamble v k = true) (hk : ∀ j < k, hasPreamble v j = false) :
    ScanOutcome v k true := ⟨h, hk⟩

/-- A preamble after two bytes of garbage, with fewer than 13 bytes from it. -/
def partialView : List Byte := [0x12#8, 0x34#8] ++ frame1.take 12

/-- A whole frame after two bytes of garbage. -/
def wholeView : List Byte := [0x12#8, 0x34#8] ++ frame1

theorem partial_outcome : ScanOutcome partialView 2 true := outcome_found (by decide) (by decide)
theorem whole_outcome : ScanOutcome wholeView 2 true := outcome_found (by decide) (by decide)
theorem frame_outcome : ScanOutcome frame1 0 true := outcome_found (by decide) (by decide)
theorem corrupted_outcome : ScanOutcome corrupted 11 false := outcome_notFound (by decide)

theorem partial_inv : (holding 0 partialView).Inv := holding_inv (by decide)
theorem whole_inv : (holding 0 wholeView).Inv := holding_inv (by decide)
theorem frame_inv : (holding 3 frame1).Inv := holding_inv (by decide)
theorem corrupted_inv : (holding 0 corrupted).Inv := holding_inv (by decide)
theorem partial_view : (holding 0 partialView).block.view? = some partialView := holding_view (by decide)
theorem whole_view : (holding 0 wholeView).block.view? = some wholeView := holding_view (by decide)
theorem frame_view : (holding 3 frame1).block.view? = some frame1 := holding_view (by decide)
theorem corrupted_view : (holding 0 corrupted).block.view? = some corrupted := holding_view (by decide)

/-- SYNC = 1 meets the invariant where the preamble stands at START. -/
theorem synced_inv : (synced 1 frame1).Inv := by decide

/-- SVALID = 1 meets it where the samples are those of the last event. -/
theorem delivered_inv : (delivered (synced 1 frame1)).Inv := by decide

/-- The word waits at the machine holding a view. -/
abbrev waiting (s : State) (w : CmdWord) : State := s.setPending [.command w]

theorem witness_LegalWordMatchesExactlyOneRow :
    decode 0xAA02#16 = .ok (.write 0xAA#8) ∧ (∃ r ∈ opcodeTable, r.covers 0xAA02#16 = true) := by decide

/-- One illegal word of each kind. -/
theorem witness_IllegalWordsRaiseIllegal :
    ∀ w ∈ [0x0009#16, 0x0012#16, 0x0100#16],
      (waiting (holding 3 frame1) w).block.wellFormed = true ∧
      (waiting (holding 3 frame1) w).pending = .command w :: [] ∧ isLegal w = false := by
  intro w hw
  simp only [List.mem_cons, List.not_mem_nil, or_false] at hw
  rcases hw with rfl | rfl | rfl <;> decide

theorem witness_ScriptLinesExpandToLegalWords :
    (∀ w, ScriptLine.poll pre ≠ .word w) ∧ 0x0005#16 ∈ scriptWords (.poll pre) := ⟨(by intro w h; cases h), by decide⟩

theorem witness_StepRunsTheDecodedCommand :
    (waiting (synced 1 frame1) 0x0004#16).block.wellFormed = true ∧
    (waiting (synced 1 frame1) 0x0004#16).pending = .command 0x0004#16 :: [] ∧
    decode 0x0004#16 = .ok .decode := by decide

theorem witness_PlacedWordRunsNext :
    (synced 1 frame1).block.wellFormed = true ∧ 0x0308 < 65536 ∧ decodeTableWord 16 0x0308 = some (.rdview 3#8) := by
  decide

theorem witness_SilentHostChangesNothing : (delivered (synced 1 frame1)).pending = [] := by decide

/-- START + LENGTH = 257; SYNC = 1 with two bytes; SYNC = 1 with three bytes that are no preamble. -/
theorem witness_IllFormedStateIsRefused :
    256 < (waiting { State.reset with block := (Block.reset.setStart 1).setLength 256 } 0#16).block.start.toNat +
      (waiting { State.reset with block := (Block.reset.setStart 1).setLength 256 } 0#16).block.length.toNat ∧
    ((waiting (synced 0 [0xAA#8, 0xAA#8]) 0#16).block.sync = true ∧
      (waiting (synced 0 [0xAA#8, 0xAA#8]) 0#16).block.length.toNat < 3) ∧
    ((waiting (synced 0 [0xAA#8, 0xAA#8, 0xAB#8]) 0#16).block.sync = true ∧
      (waiting (synced 0 [0xAA#8, 0xAA#8, 0xAB#8]) 0#16).block.preambleAt 0 ≠ some true) := by decide

theorem witness_ResetGivesEveryRegisterItsResetValue :
    ((delivered (synced 1 frame1)).setPending [.reset]).pending = .reset :: [] := by decide

theorem witness_ResetRetractsAndEmitsNothing :
    ((delivered (synced 1 frame1)).setPending [.reset, .command 0x0005#16]).pending =
      .reset :: [.command 0x0005#16] := by decide

theorem witness_EveryStepKeepsTheInvariant :
    (waiting (delivered (synced 1 frame1)) 0x0005#16).Inv ∧
    ∃ t, step (waiting (delivered (synced 1 frame1)) 0x0005#16) = .next t := ⟨by decide, _, rfl⟩

/-- The second clause; a WRITE to the full window. -/
theorem witness_EveryRunFromResetGoesOnAndStaysInTheWindow :
    (zeros 0 256).Inv ∧ ∃ t, exec (.write 1#8) (zeros 0 256) = .next t :=
  have ⟨t, h, _⟩ := full_overflows 1#8
  ⟨zeros_inv (by decide), t, h⟩

theorem witness_NoStepStopsInAnInvariantState : (waiting (delivered (synced 1 frame1)) 0x0004#16).Inv := by decide

/-- At the boundary: START is 254. -/
theorem witness_StartStaysInZeroTo254 :
    (waiting (holding 254 [0x00#8, 0x00#8]) 0x0003#16).Inv ∧
    (waiting (holding 254 [0x00#8, 0x00#8]) 0x0003#16).block.start.toNat ≤ 254 ∧
    ∃ t, step (waiting (holding 254 [0x00#8, 0x00#8]) 0x0003#16) = .next t :=
  ⟨holding_inv (by decide), by decide, _, rfl⟩

/-- Found with 12 bytes left, found with 13, and not found; and SYNC = 1 afterwards. -/
theorem witness_SyncFlagRule :
    ((holding 0 partialView).Inv ∧ (holding 0 partialView).block.view? = some partialView ∧
      ScanOutcome partialView 2 true ∧
      ∃ t, exec .cycle (holding 0 partialView) = .next t ∧ t.block.sync = true) ∧
    ((holding 0 wholeView).Inv ∧ (holding 0 wholeView).block.view? = some wholeView ∧
      ScanOutcome wholeView 2 true ∧ ∃ t, exec .cycle (holding 0 wholeView) = .next t) ∧
    ((holding 0 corrupted).Inv ∧ (holding 0 corrupted).block.view? = some corrupted ∧
      ScanOutcome corrupted 11 false ∧ ∃ t, exec .scan (holding 0 corrupted) = .next t) :=
  ⟨⟨partial_inv, partial_view, partial_outcome, _, rfl, rfl⟩, ⟨whole_inv, whole_view, whole_outcome, _, rfl⟩,
   corrupted_inv, corrupted_view, corrupted_outcome, _, rfl⟩

/-- A CYCLE that decodes, and an illegal word with SVALID = 1 before. -/
theorem witness_SvalidFlagRule :
    ((waiting (holding 0 wholeView) 0x0005#16).Inv ∧
      ∃ t, step (waiting (holding 0 wholeView) 0x0005#16) = .next t ∧ t.block.svalid = true) ∧
    ((waiting (delivered (synced 1 frame1)) 0x0104#16).Inv ∧
      ∃ t, step (waiting (delivered (synced 1 frame1)) 0x0104#16) = .next t ∧ t.block.svalid = true) :=
  ⟨⟨whole_inv, _, rfl, rfl⟩, by decide, _, rfl, rfl⟩

/-- A word that writes RESULT, an illegal word with OP 7, a RDREG and a RDVIEW. -/
theorem witness_ResultAndResponseRule :
    (isReadWord 0x0004#16 = false ∧ isReadWord 0x0017#16 = false) ∧
    (0x0207#16 &&& 0x00FF#16 = 0x0007#16) ∧ (0x0308#16 &&& 0x00FF#16 = 0x0008#16) ∧
    ∀ w : CmdWord, (waiting (holding 3 frame1) w).Inv ∧ (waiting (holding 3 frame1) w).pending = .command w :: [] ∧
      (waiting (holding 3 frame1) w).block.view? = some frame1 ∧
      (w ∈ [0x0004#16, 0x0017#16, 0x0207#16, 0x0308#16] → ∃ t, step (waiting (holding 3 frame1) w) = .next t) := by
  refine ⟨by decide, by decide, by decide, fun w => ⟨frame_inv, rfl, frame_view, fun hw => ?_⟩⟩
  simp only [List.mem_cons, List.not_mem_nil, or_false] at hw
  rcases hw with rfl | rfl | rfl | rfl <;> exact ⟨_, rfl⟩

/-- DECODE at the view's start, CYCLE at the scan offset, and a CYCLE that does not decode. -/
theorem witness_SamplesAndFrameOutRule :
    ((holding 3 frame1).Inv ∧ (holding 3 frame1).block.view? = some frame1 ∧ ScanOutcome frame1 0 true ∧
      ∃ t, exec .decode (holding 3 frame1) = .next t ∧ t.block.result = .decoded) ∧
    ((holding 0 wholeView).Inv ∧ (holding 0 wholeView).block.view? = some wholeView ∧ ScanOutcome wholeView 2 true ∧
      ∃ t, exec .cycle (holding 0 wholeView) = .next t ∧ t.block.result = .decoded) ∧
    ((holding 0 corrupted).Inv ∧ (holding 0 corrupted).block.view? = some corrupted ∧ ScanOutcome corrupted 11 false ∧
      ∃ t, exec .cycle (holding 0 corrupted) = .next t ∧ t.block.result ≠ .decoded) :=
  ⟨⟨frame_inv, frame_view, frame_outcome, _, rfl, rfl⟩, ⟨whole_inv, whole_view, whole_outcome, _, rfl, rfl⟩,
   corrupted_inv, corrupted_view, corrupted_outcome, _, rfl, by decide⟩

/-- A reset; a CYCLE that decodes, a DECODE that is misaligned, an illegal word and an overflowing WRITE. -/
theorem witness_EventCounterRule :
    (∃ t, step ((delivered (synced 1 frame1)).setPending [.reset]) = .next t) ∧
    ((waiting (holding 0 wholeView) 0x0005#16).Inv ∧ ScanOutcome wholeView 2 true ∧
      (waiting (holding 0 wholeView) 0x0005#16).block.view? = some wholeView ∧
      ∃ t, step (waiting (holding 0 wholeView) 0x0005#16) = .next t ∧ t.block.result = .decoded) ∧
    ((waiting (holding 0 corrupted) 0x0004#16).Inv ∧ ScanOutcome corrupted 11 false ∧
      (waiting (holding 0 corrupted) 0x0004#16).block.view? = some corrupted ∧
      ∃ t, step (waiting (holding 0 corrupted) 0x0004#16) = .next t ∧ t.block.result = .misaligned) ∧
    (∃ t, step (waiting (holding 0 corrupted) 0x0009#16) = .next t ∧ t.block.result = .illegal) ∧
    ((waiting (zeros 0 256) 0x1202#16).Inv ∧
      ∃ t, step (waiting (zeros 0 256) 0x1202#16) = .next t ∧ t.block.result = .overflow) :=
  ⟨⟨_, rfl⟩, ⟨whole_inv, whole_outcome, whole_view, _, rfl, rfl⟩,
   ⟨corrupted_inv, corrupted_outcome, corrupted_view, _, rfl, rfl⟩, ⟨_, rfl, rfl⟩, zeros_inv (by decide), full_step_overflows⟩

/-- The checks in their order: an illegal WRITE to a window with room; a WRITE to the full window; DECODE at 12 and at 13
bytes; a CYCLE at 12 and at 13 bytes from the preamble. -/
theorem witness_FirstCheckThatHoldsDecides :
    ((waiting (zeros 0 256) 0x1202#16).Inv ∧
      (waiting (zeros 0 256) 0x1202#16).block.view? = some (List.replicate 256 0#8) ∧
      ScanOutcome (List.replicate 256 0#8) 254 false ∧ ∃ t, step (waiting (zeros 0 256) 0x1202#16) = .next t) ∧
    (∀ w ∈ [0x1212#16, 0x0004#16, 0x0005#16],
      (waiting (holding 0 (frame1.take 12)) w).Inv ∧
      (waiting (holding 0 (frame1.take 12)) w).block.view? = some (frame1.take 12) ∧
      ScanOutcome (frame1.take 12) 0 true ∧ ∃ t, step (waiting (holding 0 (frame1.take 12)) w) = .next t) ∧
    (∀ w ∈ [0x0004#16, 0x0005#16],
      (waiting (holding 3 frame1) w).Inv ∧ (waiting (holding 3 frame1) w).block.view? = some frame1 ∧
      ScanOutcome frame1 0 true ∧ ∃ t, step (waiting (holding 3 frame1) w) = .next t) := by
  have hr : ScanOutcome (List.replicate 256 0#8) 254 false := by
    refine ⟨by rw [List.length_replicate], fun j => ?_⟩
    unfold hasPreamble
    rw [List.getElem?_replicate]
    split <;> rfl
  obtain ⟨t, ht, -⟩ := full_step_overflows
  refine ⟨⟨zeros_inv (by decide), zeros_view (by decide), hr, t, ht⟩, fun w hw => ?_, fun w hw => ?_⟩
  · refine ⟨holding_inv (by decide), holding_view (by decide), outcome_found (by decide) (by decide), ?_⟩
    simp only [List.mem_cons, List.not_mem_nil, or_false] at hw
    rcases hw with rfl | rfl | rfl <;> exact ⟨_, rfl⟩
  · refine ⟨frame_inv, frame_view, frame_outcome, ?_⟩
    simp only [List.mem_cons, List.not_mem_nil, or_false] at hw
    rcases hw with rfl | rfl <;> exact ⟨_, rfl⟩

/-- Three bytes at the top of the window; bytes that are no preamble are in `corrupted`. -/
theorem witness_MemoryReadsAreBigEndian :
    (∀ i < 3, (Memory.writeBytes [] 253 [0x01#8, 0x02#8, 0x03#8]).read (253 + i) = some (BitVec.ofNat 8 (i + 1))) ∧
    (Memory.writeBytes [] 253 pre).read 253 = some 0xAA#8 ∧ (Memory.writeBytes [] 253 pre).read 254 = some 0xAA#8 ∧
    (Memory.writeBytes [] 253 pre).read 255 = some 0xAA#8 := by decide

theorem witness_NonStoringCommandsKeepEveryByte :
    (Instr.cycle ∈ [.nop, .clear, .scan, .decode, .cycle] ∧ ∃ t, exec .cycle (holding 0 wholeView) = .next t) ∧
    ∃ t, exec (.rdview 1#8) (holding 0 wholeView) = .next t := ⟨⟨by decide, _, rfl⟩, _, rfl⟩

/-- COMPACT; and WRITE with the tail at 255, at the end with START > 0, and on the full window. -/
theorem witness_StoringCommandsKeepEveryOtherByte :
    ((holding 1 [0x01#8, 0x02#8]).Inv ∧ ∃ t, exec .compact (holding 1 [0x01#8, 0x02#8]) = .next t) ∧
    ((holding 254 [0x01#8]).Inv ∧ (holding 254 [0x01#8]).block.tail < 256 ∧
      ∃ t, exec (.write 7#8) (holding 254 [0x01#8]) = .next t) ∧
    ((holding 254 [0x01#8, 0x02#8]).Inv ∧ (holding 254 [0x01#8, 0x02#8]).block.tail = 256 ∧
      (holding 254 [0x01#8, 0x02#8]).block.startN ≠ 0 ∧
      (∃ c, (holding 254 [0x01#8, 0x02#8]).block.compactCore = .ok c) ∧
      ∃ t, exec (.write 7#8) (holding 254 [0x01#8, 0x02#8]) = .next t) ∧
    ((zeros 0 256).Inv ∧ (zeros 0 256).block.tail = 256 ∧ (zeros 0 256).block.startN = 0 ∧
      ∃ t, exec (.write 7#8) (zeros 0 256) = .next t) :=
  have ⟨t, h, _⟩ := full_overflows 7#8
  ⟨⟨holding_inv (by decide), _, rfl⟩, ⟨holding_inv (by decide), by decide, _, rfl⟩,
   ⟨holding_inv (by decide), by decide, by decide, ⟨_, rfl⟩, _, rfl⟩, zeros_inv (by decide),
   by unfold Block.tail; rw [zeros_startN (by decide), zeros_lengthN (by decide)], zeros_startN (by decide), t, h⟩

/-- A read twice, SCAN twice, WRITE twice from a view of 254 bytes, and a CYCLE that decodes. -/
theorem witness_ReadsHaveNoSideEffectAndIdempotence :
    ((holding 0 wholeView).Inv ∧
      (∃ t u, exec (.rdreg 2#8) (holding 0 wholeView) = .next t ∧ exec (.rdreg 2#8) t = .next u) ∧
      (∃ t u, exec .scan (holding 0 wholeView) = .next t ∧ exec .scan t = .next u) ∧
      ∃ t, exec .cycle (holding 0 wholeView) = .next t ∧ t.block.result = .decoded) ∧
    ((zeros 0 254).Inv ∧ (zeros 0 254).block.view? = some (List.replicate 254 0#8) ∧
      (List.replicate 254 0#8).length < 255 ∧
      ∃ t u, exec (.write 1#8) (zeros 0 254) = .next t ∧ exec (.write 1#8) t = .next u) := by
  have h1 := zeros_startN (start := 0) (n := 254) (by decide)
  have h2 := zeros_lengthN (start := 0) (n := 254) (by decide)
  refine ⟨⟨whole_inv, ⟨_, _, rfl, rfl⟩, ⟨_, _, rfl, rfl⟩, _, rfl, rfl⟩, zeros_inv (by decide), zeros_view (by decide),
    by rw [List.length_replicate]; decide, _, _, exec_eq_next.2 ⟨_, writeReply_append (by omega) _, rfl⟩,
    exec_eq_next.2 ⟨_, writeReply_append ?_ _, rfl⟩⟩
  have h3 : (BitVec.ofNat 9 ((zeros 0 254).block.lengthN + 1)).toNat = 255 := by rw [h2]; rfl
  show (zeros 0 254).block.startN + (BitVec.ofNat 9 ((zeros 0 254).block.lengthN + 1)).toNat < 256
  omega

/-- LENGTH = 256; the tail at 255; the tail at 256 with START = 1. -/
theorem witness_WriteAppendsCompactsOrOverflows :
    ((zeros 0 256).Inv ∧ (zeros 0 256).block.length.toNat = 256) ∧
    ((zeros 254 1).Inv ∧ (zeros 254 1).block.start.toNat + (zeros 254 1).block.length.toNat < 256) ∧
    ((zeros 1 255).Inv ∧ (zeros 1 255).block.start.toNat + (zeros 1 255).block.length.toNat = 256 ∧
      0 < (zeros 1 255).block.start.toNat) := by
  have h1 : ∀ {a n}, a + n ≤ 256 → (zeros a n).block.start.toNat = a := zeros_startN
  have h2 : ∀ {a n}, a + n ≤ 256 → (zeros a n).block.length.toNat = n := zeros_lengthN
  refine ⟨⟨zeros_inv (by decide), h2 (by decide)⟩, ⟨zeros_inv (by decide), ?_⟩, zeros_inv (by decide), ?_, ?_⟩
  · rw [h1 (by decide), h2 (by decide)]; decide
  · rw [h1 (by decide), h2 (by decide)]
  · rw [h1 (by decide)]; decide

theorem witness_CompactMovesTheViewToZero :
    (holding 11 [0x00#8, 0x32#8]).Inv ∧ ((holding 0 frame1).Inv ∧ (holding 0 frame1).block.start = 0#9) :=
  ⟨holding_inv (by decide), holding_inv (by decide), by decide⟩

/-- A view of 13 bytes and one of 256. -/
theorem witness_WindowCommandLaws :
    ((holding 3 frame1).Inv ∧ (holding 3 frame1).block.view? = some frame1 ∧ frame1.length < 256) ∧
    ((zeros 0 256).Inv ∧ (zeros 0 256).block.view? = some (List.replicate 256 0#8) ∧
      (List.replicate 256 0#8).length = 256) ∧
    ∃ t, exec (.write 1#8) (holding 3 frame1) = .next t :=
  ⟨⟨frame_inv, frame_view, by decide⟩,
   ⟨zeros_inv (by decide), zeros_view (by decide), List.length_replicate⟩, _, rfl⟩

/-- The same view at index 0 and at index 3, and events with no RDREG START or RDREG FREE. -/
theorem witness_PositionOfTheViewIsUnobservable :
    (holding 0 frame1).Inv ∧ (holding 3 frame1).Inv ∧ SameView (holding 0 frame1).block (holding 3 frame1).block ∧
    (holding 0 frame1).responses = (holding 3 frame1).responses ∧ (holding 0 frame1).frames = (holding 3 frame1).frames ∧
    ∀ e ∈ [HostEvent.command 0x0005#16, .command 0x0A07#16, .reset],
      e ≠ .command 0x0107#16 ∧ e ≠ .command 0x0307#16 :=
  ⟨holding_inv (by decide), frame_inv,
   ⟨(holding_view (by decide)).trans frame_view.symm, rfl, rfl, rfl, rfl, rfl⟩, rfl, rfl, by decide⟩

/-- Exactly ROOM bytes: one byte at a view of 255 bytes. -/
theorem witness_RoomIsTheNumberOfAcceptedWrites :
    (zeros 0 255).Inv ∧ (zeros 0 255).block.view? = some (List.replicate 255 0#8) ∧
    [0x01#8].length = (zeros 0 255).block.room :=
  ⟨zeros_inv (by decide), zeros_view (by decide), by unfold Block.room; rw [zeros_lengthN (by decide)]; rfl⟩

/-- A preamble at index 253, and none in a view of 2 bytes. -/
theorem witness_ScanIsItsClosedForm :
    ((holding 253 pre).Inv ∧ (holding 253 pre).block.view? = some pre) ∧
    ((holding 254 [0xAA#8, 0xAA#8]).Inv ∧ (holding 254 [0xAA#8, 0xAA#8]).block.view? = some [0xAA#8, 0xAA#8]) :=
  ⟨⟨holding_inv (by decide), holding_view (by decide)⟩, holding_inv (by decide), holding_view (by decide)⟩

/-- Garbage before a preamble, found; the corrupted frame, not found; a second scan. -/
theorem witness_SynchronizerLaws :
    ((holding 0 wholeView).Inv ∧ (holding 0 wholeView).block.view? = some wholeView ∧
      wholeView = [0x12#8, 0x34#8] ++ [0xAA#8, 0xAA#8, 0xAA#8] ++ frame1.drop 3 ∧
      (∀ j < [0x12#8, 0x34#8].length, hasPreamble wholeView j = false) ∧ (∃ j, hasPreamble wholeView j = true) ∧
      ∃ t u, exec .scan (holding 0 wholeView) = .next t ∧ exec .scan t = .next u) ∧
    ((holding 0 corrupted).Inv ∧ (holding 0 corrupted).block.view? = some corrupted ∧
      hasPreamble (corrupted ++ [0xAA#8, 0xAA#8, 0xAA#8]) 13 = true ∧
      ∃ t, exec .scan (holding 0 corrupted) = .next t ∧ t.block.result = .notFound) :=
  ⟨⟨whole_inv, whole_view, by decide, by decide, ⟨2, by decide⟩, _, _, rfl, rfl⟩,
   corrupted_inv, corrupted_view, by decide, _, rfl, rfl⟩

/-- 12 bytes; 13 bytes without the preamble; 13 bytes with it. -/
theorem witness_DecodeChecksThenExtracts :
    ((holding 0 (frame1.take 12)).Inv ∧ (holding 0 (frame1.take 12)).block.view? = some (frame1.take 12) ∧
      (frame1.take 12).length < 13) ∧
    ((holding 0 corrupted).Inv ∧ (holding 0 corrupted).block.view? = some corrupted ∧ 13 ≤ corrupted.length ∧
      hasPreamble corrupted 0 = false) ∧
    ((holding 3 frame1).Inv ∧ (holding 3 frame1).block.view? = some frame1 ∧ 13 ≤ frame1.length ∧
      hasPreamble frame1 0 = true) :=
  ⟨⟨holding_inv (by decide), holding_view (by decide), by decide⟩,
   ⟨corrupted_inv, corrupted_view, by decide, by decide⟩, frame_inv, frame_view, by decide, by decide⟩

/-- The frame F1 at two places, with the same 14th byte or another one. -/
theorem witness_ParserLaws :
    ((holding 3 frame1).Inv ∧ (holding 3 frame1).block.view? =
      some ([0xAA#8, 0xAA#8, 0xAA#8, 0x00#8, 0x0A#8, 0x00#8, 0x14#8, 0x00#8, 0x1E#8, 0x00#8, 0x28#8, 0x00#8, 0x32#8] ++ [])) ∧
    ((holding 0 (frame1 ++ [0x77#8])).Inv ∧ (holding 9 (frame1 ++ [0x78#8])).Inv ∧
      (holding 0 (frame1 ++ [0x77#8])).block.view? = some (frame1 ++ [0x77#8]) ∧
      (holding 9 (frame1 ++ [0x78#8])).block.view? = some (frame1 ++ [0x78#8]) ∧
      (frame1 ++ [0x77#8]).length = (frame1 ++ [0x78#8]).length ∧
      (frame1 ++ [0x77#8]).take 13 = (frame1 ++ [0x78#8]).take 13 ∧
      (∃ t, exec .decode (holding 0 (frame1 ++ [0x77#8])) = .next t ∧ t.block.result = .decoded) ∧
      ∃ t, exec .decode (holding 9 (frame1 ++ [0x78#8])) = .next t) :=
  ⟨⟨frame_inv, frame_view⟩, holding_inv (by decide), holding_inv (by decide), holding_view (by decide),
   holding_view (by decide), by decide, by decide, ⟨_, rfl, rfl⟩, _, rfl⟩

/-- Not found; 12 bytes from the preamble; 13 bytes from it. -/
theorem witness_CycleSynchronizesThenDecodes :
    ((holding 0 corrupted).Inv ∧ (holding 0 corrupted).block.view? = some corrupted ∧ ScanOutcome corrupted 11 false) ∧
    ((holding 0 partialView).Inv ∧ (holding 0 partialView).block.view? = some partialView ∧
      ScanOutcome partialView 2 true ∧ partialView.length - 2 < 13) ∧
    ((holding 0 wholeView).Inv ∧ (holding 0 wholeView).block.view? = some wholeView ∧
      ScanOutcome wholeView 2 true ∧ 13 ≤ wholeView.length - 2) :=
  ⟨⟨corrupted_inv, corrupted_view, corrupted_outcome⟩, ⟨partial_inv, partial_view, partial_outcome, by decide⟩,
   whole_inv, whole_view, whole_outcome, by decide⟩

theorem witness_CycleLaws :
    (holding 0 partialView).Inv ∧ (holding 0 partialView).block.view? = some partialView ∧
    (∃ t, exec .cycle (holding 0 partialView) = .next t) ∧ ScanOutcome partialView 2 true ∧
    partialView.length - 2 < 13 := ⟨partial_inv, partial_view, ⟨_, rfl⟩, partial_outcome, by decide⟩

/-- P2 with one byte of garbage: the view already holds 55, and the frame arrives in three POLLs, the last with one byte
too many. -/
theorem witness_SplitFrameIsDecodedByTheCycleAfterItsLastByte :
    (holding 0 [0x55#8]).Inv ∧ (holding 0 [0x55#8]).block.view? = some [0x55#8] ∧ [0x55#8].length ≤ 12 ∧
    frame1.length = 13 ∧ frame1.take 3 = [0xAA#8, 0xAA#8, 0xAA#8] ∧
    (∀ j < [0x55#8].length, hasPreamble ([0x55#8] ++ frame1) j = false) ∧
    [0x55#8] ++ [frame1.take 2, (frame1.drop 2).take 5].flatten ++ (frame1.drop 7 ++ [0x77#8]) =
      [0x55#8] ++ frame1 ++ [0x77#8] ∧
    ([0x55#8] ++ [frame1.take 2, (frame1.drop 2).take 5].flatten).length < [0x55#8].length + 13 ∧
    (∀ c ∈ [frame1.take 2, (frame1.drop 2).take 5] ++ [frame1.drop 7 ++ [0x77#8]], c.length ≤ 244) :=
  ⟨holding_inv (by decide), holding_view (by decide), by decide, by decide, by decide, by decide, by decide, by decide,
   by decide⟩

/-- A view of 14 bytes of garbage, more than a CYCLE leaves, and the frame in two POLLs; no WRITE overflows. -/
theorem witness_SplitFrameIsDecodedUnlessAWriteOverflows :
    (holding 0 (List.replicate 14 0x55#8)).Inv ∧
    (holding 0 (List.replicate 14 0x55#8)).block.view? = some (List.replicate 14 0x55#8) ∧
    frame1.length = 13 ∧ frame1.take 3 = [0xAA#8, 0xAA#8, 0xAA#8] ∧
    (∀ j < (List.replicate 14 0x55#8).length, hasPreamble (List.replicate 14 0x55#8 ++ frame1) j = false) ∧
    List.replicate 14 0x55#8 ++ [frame1.take 2].flatten ++ frame1.drop 2 = List.replicate 14 0x55#8 ++ frame1 ++ [] ∧
    (List.replicate 14 0x55#8 ++ [frame1.take 2].flatten).length < (List.replicate 14 0x55#8).length + 13 ∧
    ∃ t, execAll (([frame1.take 2] ++ [frame1.drop 2]).flatMap pollCommands) (holding 0 (List.replicate 14 0x55#8)) =
      .next t ∧ 6#32 ∉ t.responses :=
  ⟨holding_inv (by decide), holding_view (by decide), by decide, by decide, by decide, by decide, by decide, _, rfl,
   by decide⟩

/-- 244 bytes, the most. -/
theorem witness_DeliveryAfterCycleIsSafe :
    (holding 0 partialView).Inv ∧
    (∃ t, exec .cycle (holding 0 partialView) = .next t ∧ t.block.view? = some (frame1.take 12)) ∧
    (List.replicate 244 0#8).length ≤ 244 := ⟨partial_inv, ⟨_, rfl, rfl⟩, by rw [List.length_replicate]⟩

theorem witness_OnlyCycleConsumesTheFrame :
    (holding 3 frame1).Inv ∧ (holding 3 frame1).block.view? = some frame1 ∧
    ∃ t, exec .decode (holding 3 frame1) = .next t ∧ t.block.result = .decoded := ⟨frame_inv, frame_view, _, rfl, rfl⟩

/-- The last index below LENGTH, and the first index at it. -/
theorem witness_RdviewAnswersTheViewByte :
    (holding 3 frame1).Inv ∧ (holding 3 frame1).block.view? = some frame1 ∧
    (12#8).toNat < (holding 3 frame1).block.length.toNat ∧ (holding 3 frame1).block.length.toNat ≤ (13#8).toNat :=
  ⟨frame_inv, frame_view, by decide, by decide⟩

end Sys2Proof.Tests
end

/-! # The reply of every command in closed form -/

namespace Sys2Proof.Machine

/-- The block after compact_core on the view `v` (R62). -/
def Block.compacted (b : Block) (v : List Byte) : Block := (b.setWindow (b.window.writeBytes 0 v)).setStart 0

/-- The block after the append of an accepted WRITE (R61). -/
def Block.appended (b : Block) (x : Byte) : Block :=
  (b.setWindow (b.window.write b.tail x)).setLength (b.lengthN + 1)

/-- The block on which an accepted WRITE appends, compacted where the tail has reached the end of the window (R61). -/
def Block.roomMade (b : Block) (v : List Byte) : Block := if b.tail = 256 then b.compacted v else b

/-- What a command replies on a block with view `v` and scan outcome `k`, `found`. -/
def closedReply (b : Block) (v : List Byte) (k : Nat) (found : Bool) : Instr → Reply
  | .nop      => finish b .ok
  | .clear    => finish b.clearWindow .ok
  | .write x  =>
    if b.lengthN = 256 then raise b .overflow
    else finish ((b.roomMade v).appended x) .ok
  | .scan     => finish ((b.discard k).setSync found) (if found then .found else .notFound)
  | .decode   =>
    if b.lengthN < 13 then finish (b.setSvalid false) .incomplete
    else if hasPreamble v 0 then
      finishWith ((b.setSvalid false).storeSamples (frameSamples v)) .decoded (frameSamples v)
    else finish ((b.setSvalid false).setCounters b.counters.addMisalign) .misaligned
  | .cycle    =>
    if found then
      if b.lengthN - k < 13 then finish (cycleScanned b k true) .incomplete
      else finishWith ((cycleScanned b k true).storeSamples (frameSamples (v.drop k))).clearWindow .decoded
        (frameSamples (v.drop k))
    else finish (cycleScanned b k false) .notFound
  | .compact  => finish (b.compacted v) .ok
  | .rdreg n  => respond b (b.readReg n)
  | .rdview i => respond b ((v.getD i.toNat 0#8).setWidth 32)

section ClosedReply
variable {b : Block} {v : List Byte} {k : Nat} {found : Bool}

/-- Making room moves the view and changes no other register. -/
theorem Block.roomMade_keeps (b : Block) (v : List Byte) :
    (b.roomMade v).sync = b.sync ∧ (b.roomMade v).svalid = b.svalid ∧ (b.roomMade v).samples = b.samples ∧
      (b.roomMade v).counters = b.counters := by
  unfold Block.roomMade
  split <;> exact ⟨rfl, rfl, rfl, rfl⟩

theorem writeReply_eq_closedReply (hi : b.Inv) (hv : b.view? = some v) (x : Byte) :
    writeReply x b = .ok (closedReply b v k found (.write x)) := by
  have hf := hi.fits
  have ht : b.tail = b.startN + b.lengthN := rfl
  by_cases hl : b.lengthN = 256
  · simp only [closedReply, if_pos hl]
    exact writeReply_overflow (by omega) hl x
  · simp only [closedReply, if_neg hl, Block.roomMade]
    by_cases hc : b.tail = 256
    · have hct : (b.compacted v).tail = b.lengthN := Nat.zero_add _
      rw [writeReply_compact hv (by omega) (by omega), if_pos hc, Block.appended, hct]
      rfl
    · rw [writeReply_append (by omega), if_neg hc]
      rfl

/-- In a block that meets the invariant every command completes, with the closed form as its reply. -/
theorem replyOf_eq_closedReply (hi : b.Inv) (hv : b.view? = some v) (ho : ScanOutcome v k found) (i : Instr) :
    replyOf i b = .ok (closedReply b v k found i) := by
  cases i with
  | write x => exact writeReply_eq_closedReply hi hv x
  | scan =>
    obtain ⟨k', f', ho', h⟩ := scanReply_spec hv
    obtain ⟨rfl, rfl⟩ := ho.unique ho'
    exact h
  | decode => exact decodeReply_spec hv
  | cycle =>
    obtain ⟨k', f', ho', h⟩ := cycleReply_spec hv hi.fits
    obtain ⟨rfl, rfl⟩ := ho.unique ho'
    exact h
  | compact => exact compactReply_spec hv
  | rdview i => exact rdviewReply_spec hv i
  | nop | clear | rdreg n => rfl

/-- exec in a state that meets the invariant. -/
theorem exec_eq_answer {s : State} (hi : s.block.Inv) (hv : s.block.view? = some v) (ho : ScanOutcome v k found)
    (i : Instr) : exec i s = .next (s.answer (closedReply s.block v k found i)) :=
  exec_eq_next.2 ⟨_, replyOf_eq_closedReply hi hv ho i, rfl⟩

/-- Every view has a scan outcome. -/
theorem exists_scanOutcome (hv : b.view? = some v) : ∃ k found, ScanOutcome v k found :=
  have ⟨k, f, _, ho⟩ := Block.scanCore_spec hv
  ⟨k, f, ho⟩

end ClosedReply

/-! # The invariant on the view, and that every reply keeps it -/

section Invariant
variable {b : Block} {v : List Byte} {k : Nat} {found : Bool}

/-- The invariant of a block with a view, its SYNC part said on the view. -/
theorem Block.inv_iff (hv : b.view? = some v) :
    b.Inv ↔ b.window.wf = true ∧ b.startN + b.lengthN ≤ 256 ∧ (b.sync = true → hasPreamble v 0 = true) := by
  have hl := Block.view_length hv
  have hs : b.syncHolds = true ↔ (b.sync = true → hasPreamble v 0 = true) := by
    rw [Block.syncHolds_iff]
    refine imp_congr_right fun _ => ⟨fun ⟨h3, hp⟩ => ?_, fun hp => ?_⟩
    · simpa [Block.preambleAt_view hv (k := 0) (by omega)] using hp
    · have := hasPreamble_bound hp
      exact ⟨by omega, by rw [Block.preambleAt_view hv (by omega), hp]⟩
  rw [← hs, ← Block.cursorsFit_iff]
  simp [Block.Inv, hv]

/-- The invariant of a block reads the window, the cursors and SYNC only. -/
theorem Block.Inv.of_eq {a : Block} (hi : b.Inv) (hw : a.window = b.window) (hs : a.start = b.start)
    (hl : a.length = b.length) (hy : a.sync = b.sync) : a.Inv := by
  obtain ⟨_, _, _, _, _, _, _, _⟩ := a
  obtain ⟨_, _, _, _, _, _, _, _⟩ := b
  subst hw hs hl hy
  exact hi

theorem Block.clearWindow_view (b : Block) : b.clearWindow.view? = some [] := rfl

theorem Block.Inv.clearWindow (hi : b.Inv) : b.clearWindow.Inv :=
  (Block.inv_iff b.clearWindow_view).2 ⟨hi.1, Nat.zero_le _, fun h => nomatch h⟩

theorem Block.Inv.compacted (hi : b.Inv) (hv : b.view? = some v) : (b.compacted v).Inv := by
  obtain ⟨hwf, hf, hs⟩ := (Block.inv_iff hv).1 hi
  have hl := Block.view_length hv
  exact (Block.inv_iff (Block.compacted_view hv)).2
    ⟨Memory.wf_writeBytes hwf (show 0 + v.length ≤ 256 by omega), show 0 + b.lengthN ≤ 256 by omega, hs⟩

theorem Block.view_appended (hv : b.view? = some v) (ht : b.tail < 256) (x : Byte) :
    (b.appended x).view? = some (v ++ [x]) :=
  Block.appended_view hv ht x

theorem Block.Inv.appended (hi : b.Inv) (hv : b.view? = some v) (ht : b.tail < 256) (x : Byte) :
    (b.appended x).Inv := by
  obtain ⟨hwf, hf, hs⟩ := (Block.inv_iff hv).1 hi
  have ht' : b.startN + b.lengthN < 256 := ht
  have hlen : (b.appended x).lengthN = b.lengthN + 1 := Block.setLength_lengthN (by omega)
  have hst : (b.appended x).startN = b.startN := rfl
  refine (Block.inv_iff (Block.view_appended hv ht x)).2 ⟨Memory.wf_write hwf ht, by omega, fun h => ?_⟩
  have hp := hs h
  rwa [hasPreamble_append (hasPreamble_bound hp)]

theorem Block.Inv.discard (hi : b.Inv) (hv : b.view? = some v) (ho : ScanOutcome v k found) :
    ((b.discard k).setSync found).Inv := by
  obtain ⟨hwf, hf, -⟩ := (Block.inv_iff hv).1 hi
  have hl := Block.view_length hv
  have hk : k ≤ b.lengthN := Nat.le_trans ho.le (by omega)
  have hst : ((b.discard k).setSync found).startN = b.startN + k := Block.discard_startN hf hk
  have hlen : ((b.discard k).setSync found).lengthN = b.lengthN - k := Block.discard_lengthN hf hk
  have hvd : ((b.discard k).setSync found).view? = some (v.drop k) := Block.view_discard hv hf hk
  refine (Block.inv_iff hvd).2 ⟨hwf, by omega, fun h => ?_⟩
  have ho' : ScanOutcome v k true := (show found = true from h) ▸ ho
  rw [hasPreamble_drop]
  exact ho'.found.1

theorem Block.Inv.roomMade (hi : b.Inv) (hv : b.view? = some v) (hl : b.lengthN ≠ 256) :
    (b.roomMade v).Inv ∧ (b.roomMade v).view? = some v ∧ (b.roomMade v).tail < 256 := by
  have hf : b.tail ≤ 256 := hi.fits
  have ht : b.tail = b.startN + b.lengthN := rfl
  have hct : (b.compacted v).tail = b.lengthN := Nat.zero_add _
  unfold Block.roomMade
  by_cases hc : b.tail = 256
  · simp only [if_pos hc]
    exact ⟨hi.compacted hv, Block.compacted_view hv, by omega⟩
  · simp only [if_neg hc]
    exact ⟨hi, hv, by omega⟩

/-- Every reply keeps the invariant of the block. -/
theorem closedReply_inv (hi : b.Inv) (hv : b.view? = some v) (ho : ScanOutcome v k found) (i : Instr) :
    (closedReply b v k found i).block.Inv := by
  cases i with
  | nop => exact hi.of_eq rfl rfl rfl rfl
  | clear => exact hi.clearWindow.of_eq rfl rfl rfl rfl
  | write x =>
    simp only [closedReply]
    split
    · exact hi.of_eq rfl rfl rfl rfl
    · next hl =>
      obtain ⟨hc, hcv, hct⟩ := hi.roomMade hv hl
      exact (hc.appended hcv hct x).of_eq rfl rfl rfl rfl
  | scan => exact (hi.discard hv ho).of_eq rfl rfl rfl rfl
  | decode =>
    simp only [closedReply]
    split
    · exact hi.of_eq rfl rfl rfl rfl
    · split <;> exact hi.of_eq rfl rfl rfl rfl
  | cycle =>
    have hs := hi.discard hv ho
    simp only [closedReply]
    split
    · next hf =>
      subst hf
      split
      · exact hs.of_eq rfl rfl rfl rfl
      · exact hs.clearWindow.of_eq rfl rfl rfl rfl
    · next hf =>
      simp only [Bool.not_eq_true] at hf
      subst hf
      exact hs.of_eq rfl rfl rfl rfl
  | compact => exact (hi.compacted hv).of_eq rfl rfl rfl rfl
  | rdreg n => exact hi
  | rdview i => exact hi

end Invariant

end Sys2Proof.Machine

/-! # Command words: the decoder and the encoder are inverse, and the masks of the statements -/

namespace Sys2Proof

theorem decode_encode (i : Instr) : decode (encode i) = .ok i := by
  cases i <;> simp only [decode, encode, fieldsOf_packFields] <;> rfl

theorem eq_encode_of_decode {w : CmdWord} {i : Instr} (h : decode w = .ok i) : w = encode i := by
  obtain ⟨hr, he⟩ := decodeFields_ok h
  exact (packFields_fieldsOf hr).trans he.symm

theorem isLegal_encode (i : Instr) : isLegal (encode i) = true := by simp [isLegal, decode_encode]

theorem isLegal_eq_false_of_error {w : CmdWord} {r : IllegalReason} (h : decode w = .error r) : isLegal w = false := by
  simp [isLegal, h]

/-- An illegal word is no command's word. -/
theorem ne_encode_of_illegal {w : CmdWord} (h : isLegal w = false) (i : Instr) : w ≠ encode i := by
  rintro rfl
  simp [isLegal_encode] at h

theorem encode_inj {i j : Instr} : encode i = encode j ↔ i = j := by
  refine ⟨fun h => ?_, congrArg encode⟩
  have := decode_encode i
  rw [h, decode_encode] at this
  exact (Except.ok.inj this).symm

theorem packFields_eq_append (op : BitVec 4) (imm : Byte) : packFields op imm = imm ++ op.setWidth 8 := by
  apply BitVec.eq_of_getLsbD_eq
  intro i hi
  rw [packFields_bit, BitVec.getLsbD_append, BitVec.getLsbD_setWidth]
  by_cases h8 : i < 8
  · by_cases h4 : i < 4
    · simp [h4, h8]
    · simp [h4, h8, BitVec.getLsbD_of_ge op i (by omega)]
  · simp [h8, show ¬ i < 4 by omega]

@[simp] theorem packFields_lowByte (op : BitVec 4) (imm : Byte) : packFields op imm &&& 0x00FF#16 = op.setWidth 16 := by
  apply BitVec.eq_of_getLsbD_eq
  intro i hi
  rw [BitVec.getLsbD_and, packFields_bit, BitVec.getLsbD_setWidth]
  by_cases h4 : i < 4
  · have : (0x00FF#16).getLsbD i = true := by interval_cases i <;> rfl
    simp [h4, this, hi]
  · rw [BitVec.getLsbD_of_ge op i (by omega)]
    by_cases h8 : i < 8
    · simp [h4, h8]
    · have : (0x00FF#16).getLsbD i = false := by interval_cases i <;> rfl
      simp [this]

@[simp] theorem packFields_imm (op : BitVec 4) (imm : Byte) : (packFields op imm).extractLsb' 8 8 = imm :=
  congrArg RawCommand.imm (fieldsOf_packFields op imm)

/-- A word whose low byte is an opcode has RSV = 0. -/
theorem eq_packFields_of_lowByte {w : CmdWord} {op : BitVec 4} (h : w &&& 0x00FF#16 = op.setWidth 16) :
    w = packFields op (w.extractLsb' 8 8) := by
  apply BitVec.eq_of_getLsbD_eq
  intro i hi
  have hb : (w &&& 0x00FF#16).getLsbD i = (op.setWidth 16).getLsbD i := by rw [h]
  rw [BitVec.getLsbD_and, BitVec.getLsbD_setWidth] at hb
  rw [packFields_bit, BitVec.getLsbD_extractLsb']
  by_cases h8 : i < 8
  · have hm : (0x00FF#16).getLsbD i = true := by interval_cases i <;> rfl
    have hw : w.getLsbD i = op.getLsbD i := by simpa only [hm, hi, Bool.and_true, decide_true, Bool.true_and] using hb
    by_cases h4 : i < 4
    · simp [h4, hw]
    · simp [h4, h8, hw, BitVec.getLsbD_of_ge op i (by omega)]
  · simp [h8, show ¬ i < 4 by omega, show i - 8 < 8 by omega, show 8 + (i - 8) = i by omega]

end Sys2Proof

namespace Sys2Proof.Machine

/-- RDREG and RDVIEW, the two commands that only read. -/
def isReadInstr : Instr → Bool
  | .rdreg _ | .rdview _ => true
  | .nop | .clear | .write _ | .scan | .decode | .cycle | .compact => false

@[simp] theorem isReadWord_encode (i : Instr) : isReadWord (encode i) = isReadInstr i := by
  cases i <;> simp [isReadWord, isReadInstr, encode]

theorem encode_eq_scanWord {i : Instr} : encode i = 0x0003#16 ↔ i = .scan :=
  encode_inj (j := .scan)

theorem encode_eq_decodeWord {i : Instr} : encode i = 0x0004#16 ↔ i = .decode :=
  encode_inj (j := .decode)

theorem encode_eq_cycleWord {i : Instr} : encode i = 0x0005#16 ↔ i = .cycle :=
  encode_inj (j := .cycle)

theorem encode_lowByte_write {i : Instr} : encode i &&& 0x00FF#16 = 0x0002#16 ↔ ∃ x, i = .write x := by
  cases i <;> simp [encode]

theorem encode_lowByte_rdreg {i : Instr} : encode i &&& 0x00FF#16 = 0x0007#16 ↔ ∃ n, i = .rdreg n := by
  cases i <;> simp [encode]

theorem encode_lowByte_rdview {i : Instr} : encode i &&& 0x00FF#16 = 0x0008#16 ↔ ∃ n, i = .rdview n := by
  cases i <;> simp [encode]

/-- A word with the low byte of a command with an operand is legal (R55). -/
theorem lowByte_ne_of_illegal {w : CmdWord} (h : isLegal w = false) :
    w &&& 0x00FF#16 ≠ 0x0002#16 ∧ w &&& 0x00FF#16 ≠ 0x0007#16 ∧ w &&& 0x00FF#16 ≠ 0x0008#16 :=
  ⟨fun hw => ne_encode_of_illegal h (.write _) (eq_packFields_of_lowByte (op := 2#4) hw),
   fun hw => ne_encode_of_illegal h (.rdreg _) (eq_packFields_of_lowByte (op := 7#4) hw),
   fun hw => ne_encode_of_illegal h (.rdview _) (eq_packFields_of_lowByte (op := 8#4) hw)⟩

theorem isReadWord_of_illegal {w : CmdWord} (h : isLegal w = false) : isReadWord w = false := by
  obtain ⟨-, h7, h8⟩ := lowByte_ne_of_illegal h
  simp [isReadWord, h7, h8]

end Sys2Proof.Machine

/-! # Frames, the invariant of the machine, and the step -/

namespace Sys2Proof.Machine

section Deliveries
variable {b : Block} {v : List Byte} {k : Nat} {found : Bool}

/-- A reply that delivers the frame `e`: it ends with DECODED, the samples are `e` and valid, and `e` is emitted. -/
structure Reply.Delivers (r : Reply) (e : Samples) : Prop where
  result  : r.block.result = .decoded
  samples : r.block.samples = e
  svalid  : r.block.svalid = true
  frame   : r.frame = some e

/-- The reply of a DECODE or CYCLE that delivers no frame: SVALID drops, the samples stay, nothing is emitted. -/
structure Reply.Withholds (r : Reply) (b : Block) : Prop where
  result  : r.block.result ≠ .decoded
  samples : r.block.samples = b.samples
  svalid  : r.block.svalid = false
  frame   : r.frame = none

/-- The reply of a command that does not parse: SVALID and the samples stay, nothing is emitted. -/
structure Reply.KeepsSamples (r : Reply) (b : Block) : Prop where
  samples : r.block.samples = b.samples
  svalid  : r.block.svalid = b.svalid
  frame   : r.frame = none

theorem closedReply_decode_delivery (b : Block) (v : List Byte) (k : Nat) (found : Bool) :
    (closedReply b v k found .decode).Delivers (frameSamples v) ∨ (closedReply b v k found .decode).Withholds b := by
  simp only [closedReply]
  split
  · exact .inr ⟨nofun, rfl, rfl, rfl⟩
  · split
    · exact .inl ⟨rfl, rfl, rfl, rfl⟩
    · exact .inr ⟨nofun, rfl, rfl, rfl⟩

theorem closedReply_cycle_delivery (b : Block) (v : List Byte) (k : Nat) (found : Bool) :
    (closedReply b v k found .cycle).Delivers (frameSamples (v.drop k)) ∨
      (closedReply b v k found .cycle).Withholds b := by
  simp only [closedReply]
  split
  · split
    · exact .inr ⟨nofun, rfl, rfl, rfl⟩
    · exact .inl ⟨rfl, rfl, rfl, rfl⟩
  · exact .inr ⟨nofun, rfl, rfl, rfl⟩

theorem closedReply_keepsSamples {i : Instr} (hd : i ≠ .decode) (hc : i ≠ .cycle) :
    (closedReply b v k found i).KeepsSamples b := by
  cases i with
  | decode => exact absurd rfl hd
  | cycle => exact absurd rfl hc
  | write x =>
    simp only [closedReply]
    obtain ⟨-, hsv, hsm, -⟩ := b.roomMade_keeps v
    split
    · exact ⟨rfl, rfl, rfl⟩
    · exact ⟨hsm, hsv, rfl⟩
  | nop | clear | scan | compact | rdreg n | rdview i => exact ⟨rfl, rfl, rfl⟩

/-- A command either delivers a frame, or emits nothing and keeps the samples and does not raise SVALID. -/
theorem closedReply_delivers_or_keeps (b : Block) (v : List Byte) (k : Nat) (found : Bool) (i : Instr) :
    (∃ e, (closedReply b v k found i).Delivers e) ∨
      ((closedReply b v k found i).frame = none ∧ (closedReply b v k found i).block.samples = b.samples ∧
        ((closedReply b v k found i).block.svalid = true → b.svalid = true)) := by
  have hw : ∀ {r : Reply}, r.Withholds b → r.frame = none ∧ r.block.samples = b.samples ∧
      (r.block.svalid = true → b.svalid = true) :=
    fun h => ⟨h.frame, h.samples, fun hs => by simp [h.svalid] at hs⟩
  by_cases hd : i = .decode
  · subst hd
    exact (closedReply_decode_delivery b v k found).imp (⟨_, ·⟩) hw
  · by_cases hc : i = .cycle
    · subst hc
      exact (closedReply_cycle_delivery b v k found).imp (⟨_, ·⟩) hw
    · have h := closedReply_keepsSamples (b := b) (v := v) (k := k) (found := found) hd hc
      exact .inr ⟨h.frame, h.samples, fun hs => h.svalid ▸ hs⟩

end Deliveries

section Step
variable {s t : State} {v : List Byte} {k : Nat} {found : Bool} {w : CmdWord} {es : List HostEvent}

/-- A reply delivered in a state that meets the invariant gives a state that meets it. -/
theorem State.Inv.answer (hi : s.Inv) (hv : s.block.view? = some v) (ho : ScanOutcome v k found) (i : Instr) :
    (s.answer (closedReply s.block v k found i)).Inv := by
  obtain ⟨hb, hs⟩ := hi
  refine ⟨closedReply_inv hb hv ho i, fun hsv => ?_⟩
  rw [State.answer_frames, State.answer_block]
  rcases closedReply_delivers_or_keeps s.block v k found i with ⟨e, he⟩ | ⟨hframe, hsamples, hsvalid⟩
  · simp [he.frame, he.samples]
  · simpa [hframe, hsamples] using hs (hsvalid hsv)

theorem State.Inv.raiseIllegal (hi : s.Inv) : s.raiseIllegal.Inv :=
  ⟨hi.1.of_eq rfl rfl rfl rfl, fun h => by simpa [State.raiseIllegal, raise] using hi.2 h⟩

theorem Block.reset_inv : Block.reset.Inv := by decide

theorem State.Inv.takeReset (s : State) : s.takeReset.Inv := ⟨Block.reset_inv, nofun⟩

/-- A command that completes in a state that meets the invariant keeps it. -/
theorem State.Inv.exec (hi : s.Inv) {i : Instr} (h : exec i s = .next t) : t.Inv := by
  obtain ⟨v, hv⟩ := hi.1.exists_view
  obtain ⟨k, f, ho⟩ := exists_scanOutcome hv
  rw [exec_eq_answer hi.1 hv ho] at h
  cases h
  exact hi.answer hv ho i

theorem step_idle (hp : s.pending = []) : step s = .next s := by simp only [step, hp]

theorem step_reset (hp : s.pending = .reset :: es) : step s = .next (s.setPending es).takeReset := by
  simp only [step, hp]

theorem step_command (hp : s.pending = .command w :: es) :
    step s = runWord w (s.setPending es) := by simp only [step, hp]

theorem runWord_encode (hi : s.block.Inv) (i : Instr) : runWord (encode i) s = Machine.exec i s := by
  simp only [runWord, Block.wellFormed_of_inv hi, if_true, decode_encode]

theorem runWord_error (hi : s.block.Inv) {r : IllegalReason} (h : decode w = .error r) :
    runWord w s = .next s.raiseIllegal := by
  simp only [runWord, Block.wellFormed_of_inv hi, if_true, h]

/-- What a step does with a command word in a state that meets the invariant: a command's word delivers the command's
reply, any other word raises ILLEGAL. -/
theorem step_command_cases (hi : s.Inv) (hp : s.pending = .command w :: es) (hv : s.block.view? = some v)
    (ho : ScanOutcome v k found) :
    (∃ i, w = encode i ∧ step s = .next ((s.setPending es).answer (closedReply s.block v k found i))) ∨
      (isLegal w = false ∧ step s = .next (s.setPending es).raiseIllegal) := by
  have hi' : (s.setPending es).block.Inv := hi.1
  rw [step_command hp]
  cases hd : decode w with
  | ok i =>
    obtain rfl := eq_encode_of_decode hd
    exact .inl ⟨i, rfl, (runWord_encode hi' i).trans (exec_eq_answer hi' hv ho i)⟩
  | error r => exact .inr ⟨isLegal_eq_false_of_error hd, runWord_error hi' hd⟩

/-- From a state that meets the invariant every step goes on, to a state that meets it. -/
theorem State.Inv.step (hi : s.Inv) : ∃ t, step s = .next t ∧ t.Inv := by
  match hp : s.pending with
  | [] => exact ⟨s, step_idle hp, hi⟩
  | .reset :: es => exact ⟨_, step_reset hp, State.Inv.takeReset _⟩
  | .command w :: es =>
    obtain ⟨v, hv⟩ := hi.1.exists_view
    obtain ⟨k, f, ho⟩ := exists_scanOutcome hv
    have hi' : (s.setPending es).Inv := hi
    rcases step_command_cases hi hp hv ho with ⟨i, -, h⟩ | ⟨-, h⟩
    · exact ⟨_, h, hi'.answer hv ho i⟩
    · exact ⟨_, h, hi'.raiseIllegal⟩

theorem State.Inv.of_step (hi : s.Inv) (h : Machine.step s = .next t) : t.Inv := by
  obtain ⟨u, hu, hui⟩ := hi.step
  rw [hu] at h
  cases h
  exact hui

theorem run_succ (h : Machine.step s = .next t) (n : Nat) :
    Host.Core.run core (n + 1) s = Host.Core.run core n t := by
  have hc : core.step s = .next t := h
  simp only [Host.Core.run, hc]

/-- So does every run. -/
theorem State.Inv.run (hi : s.Inv) (n : Nat) : ∃ t, Host.Core.run core n s = .next t ∧ t.Inv := by
  induction n generalizing s with
  | zero => exact ⟨s, rfl, hi⟩
  | succ n ih =>
    obtain ⟨u, hu, hui⟩ := hi.step
    obtain ⟨t, ht, hti⟩ := ih hui
    exact ⟨t, (run_succ hu n).trans ht, hti⟩

theorem bootedWith_inv (es : List HostEvent) : (bootedWith es).Inv := ⟨Block.reset_inv, nofun⟩

theorem State.Inv.cursors_le (hi : s.Inv) : s.block.start.toNat + s.block.length.toNat ≤ 256 := hi.1.fits

end Step

/-- Settles O14, by induction on the number of steps: the invariant holds at reset and every step keeps it. -/
theorem everyRunFromResetGoesOnAndStaysInTheWindow : Obligations.EveryRunFromResetGoesOnAndStaysInTheWindow := by
  refine ⟨fun es n => ?_, fun i s t hi h => (hi.exec h).cursors_le⟩
  obtain ⟨t, ht, hti⟩ := (bootedWith_inv es).run n
  exact ⟨t, ht, hti.cursors_le⟩

end Sys2Proof.Machine

/-! # The rules of the flags, the results, the samples and the counters -/

namespace Sys2Proof.Machine

section Replies
variable {b : Block} {v : List Byte} {k : Nat} {found : Bool}

/-- Who writes SYNC, and to what (R19). -/
theorem closedReply_sync (hl : v.length = b.lengthN) (i : Instr) :
    (closedReply b v k found i).block.sync =
      match i with
      | .clear => false
      | .scan  => found
      | .cycle => found && decide (v.length - k < 13)
      | .nop | .write _ | .decode | .compact | .rdreg _ | .rdview _ => b.sync := by
  cases i with
  | write x =>
    simp only [closedReply]
    split
    · rfl
    · exact (b.roomMade_keeps v).1
  | decode =>
    simp only [closedReply]
    split
    · rfl
    · split <;> rfl
  | cycle =>
    cases found with
    | false => rfl
    | true =>
      simp only [closedReply, hl, if_true, Bool.true_and]
      split
      · next h => exact (decide_eq_true h).symm
      · next h => exact (decide_eq_false h).symm
  | nop | clear | scan | compact | rdreg n | rdview i => rfl

/-- Every command but the two reads answers the code it writes to RESULT, and that code is never ILLEGAL (R22, R51). -/
theorem closedReply_response {i : Instr} (hr : isReadInstr i = false) :
    (closedReply b v k found i).response = (closedReply b v k found i).block.result.word ∧
      (closedReply b v k found i).block.result ≠ .illegal := by
  cases i with
  | write x =>
    simp only [closedReply]
    split <;> exact ⟨rfl, nofun⟩
  | scan => cases found <;> exact ⟨rfl, nofun⟩
  | decode =>
    simp only [closedReply]
    split
    · exact ⟨rfl, nofun⟩
    · split <;> exact ⟨rfl, nofun⟩
  | cycle =>
    simp only [closedReply]
    split
    · split <;> exact ⟨rfl, nofun⟩
    · exact ⟨rfl, nofun⟩
  | nop | clear | compact => exact ⟨rfl, nofun⟩
  | rdreg n | rdview n => cases hr

/-- What increments each counter (R24). -/
theorem closedReply_counters (i : Instr) :
    (closedReply b v k found i).block.counters =
      { frame    := b.counters.frame +
          (if isReadInstr i = false ∧ (closedReply b v k found i).block.result = .decoded then 1#32 else 0#32),
        discard  := b.counters.discard + (if i = .scan ∨ i = .cycle then BitVec.ofNat 32 k else 0#32),
        misalign := b.counters.misalign +
          (if isReadInstr i = false ∧ (closedReply b v k found i).block.result = .misaligned then 1#32 else 0#32),
        overflow := b.counters.overflow +
          (if (∃ x, i = .write x) ∧ (closedReply b v k found i).block.result = .overflow then 1#32 else 0#32),
        illegal  := b.counters.illegal } := by
  cases i with
  | write x =>
    obtain ⟨-, -, -, hc⟩ := b.roomMade_keeps v
    simp only [closedReply]
    split
    · simp [raise, isReadInstr, Counters.countResult, Counters.addOverflow]
    · simp [finish, isReadInstr, Block.appended, hc]
  | decode =>
    simp only [closedReply]
    split
    · simp [finish, isReadInstr]
    · split
      · simp [finishWith, isReadInstr, Block.storeSamples, Counters.addFrame]
      · simp [finish, isReadInstr, Counters.addMisalign]
  | scan => cases found <;> simp [closedReply, finish, isReadInstr, Block.discard, Counters.addDiscard]
  | cycle =>
    simp only [closedReply]
    split
    · split
      · simp [finish, isReadInstr, cycleScanned, Block.discard, Counters.addDiscard]
      · simp [finishWith, isReadInstr, cycleScanned, Block.discard, Block.clearWindow, Block.storeSamples,
          Counters.addDiscard, Counters.addFrame]
    · simp [finish, isReadInstr, cycleScanned, Block.discard, Counters.addDiscard]
  | nop | clear | compact => simp [closedReply, finish, isReadInstr, Block.clearWindow, Block.compacted]
  | rdreg n | rdview i => simp [closedReply, respond, isReadInstr]

/-- The SYNC invariant as a multi-byte read (R19). -/
theorem Block.Inv.sync_read (hi : b.Inv) (hs : b.sync = true) :
    3 ≤ b.length.toNat ∧ b.window.memRead b.start.toNat 3 = some 0xAAAAAA := by
  obtain ⟨h3, hp⟩ := Block.syncHolds_iff.1 hi.2.2.2 hs
  obtain ⟨n, hn, he⟩ := Option.map_eq_some_iff.1 hp
  exact ⟨h3, hn.trans (congrArg some (beq_iff_eq.1 he))⟩

theorem Reply.Delivers.svalid_iff {r : Reply} {e : Samples} (h : r.Delivers e) :
    r.block.svalid = true ↔ r.block.result = .decoded := by simp [h.svalid, h.result]

theorem Reply.Withholds.svalid_iff {r : Reply} (h : r.Withholds b) :
    r.block.svalid = true ↔ r.block.result = .decoded := by simp [h.svalid, h.result]

/-- A DECODE or CYCLE leaves SVALID = 1 exactly when it ends with DECODED (R21). -/
theorem closedReply_svalid_iff {i : Instr} (h : i = .decode ∨ i = .cycle) :
    (closedReply b v k found i).block.svalid = true ↔ (closedReply b v k found i).block.result = .decoded := by
  rcases h with rfl | rfl
  · exact (closedReply_decode_delivery b v k found).elim Reply.Delivers.svalid_iff Reply.Withholds.svalid_iff
  · exact (closedReply_cycle_delivery b v k found).elim Reply.Delivers.svalid_iff Reply.Withholds.svalid_iff

end Replies

/-- Settles O17: the SYNC of each closed reply, and the invariant kept by every command. -/
theorem syncFlagRule : Obligations.SyncFlagRule := by
  intro i s t v k found hi hv ho h
  refine ⟨?_, (hi.exec h).1.sync_read⟩
  rw [exec_eq_answer hi.1 hv ho] at h
  cases h
  exact closedReply_sync (Block.view_length hv) i

/-- Settles O18: by the word's two cases, a command's word and an illegal one. -/
theorem svalidFlagRule : Obligations.SvalidFlagRule := by
  intro s t w es hi hp h
  obtain ⟨v, hv⟩ := hi.1.exists_view
  obtain ⟨k, f, ho⟩ := exists_scanOutcome hv
  have ht := hi.of_step h
  rcases step_command_cases hi hp hv ho with ⟨i, rfl, h'⟩ | ⟨hw, h'⟩ <;> rw [h'] at h <;> cases h
  · rw [ne_eq, ne_eq, encode_eq_decodeWord, encode_eq_cycleWord]
    exact ⟨closedReply_svalid_iff, fun ⟨hd, hc⟩ => (closedReply_keepsSamples hd hc).svalid, ht.2⟩
  · refine ⟨fun h45 => ?_, fun _ => rfl, ht.2⟩
    exact (h45.elim (ne_encode_of_illegal hw .decode) (ne_encode_of_illegal hw .cycle)).elim

/-- Settles O19: by the word's two cases, and the two reads apart from the other commands. -/
theorem resultAndResponseRule : Obligations.ResultAndResponseRule := by
  intro s t w es v hi hp hv h
  obtain ⟨k, f, ho⟩ := exists_scanOutcome hv
  rcases step_command_cases hi hp hv ho with ⟨i, rfl, h'⟩ | ⟨hw, h'⟩ <;> rw [h'] at h <;> cases h
  · refine ⟨fun hr => ?_, fun h7 => ?_, fun h8 => ?_⟩
    · rw [isReadWord_encode] at hr
      obtain ⟨hresp, hne⟩ := closedReply_response (b := s.block) (v := v) (k := k) (found := f) hr
      refine ⟨?_, ?_⟩
      · rw [State.answer_responses, State.setPending_responses]
        exact congrArg (s.responses ++ [·]) hresp
      · simpa [isLegal_encode] using hne
    · obtain ⟨n, rfl⟩ := encode_lowByte_rdreg.1 h7
      rw [show (encode (.rdreg n)).extractLsb' 8 8 = n from packFields_imm _ _]
      exact ⟨rfl, rfl⟩
    · obtain ⟨n, rfl⟩ := encode_lowByte_rdview.1 h8
      rw [show (encode (.rdview n)).extractLsb' 8 8 = n from packFields_imm _ _]
      exact ⟨rfl, rfl⟩
  · obtain ⟨-, h7, h8⟩ := lowByte_ne_of_illegal hw
    exact ⟨fun _ => ⟨rfl, iff_of_true rfl hw⟩, fun h => absurd h h7, fun h => absurd h h8⟩

/-- Settles O20: DECODE and CYCLE deliver the frame or withhold it, and no other command touches the samples. -/
theorem samplesAndFrameOutRule : Obligations.SamplesAndFrameOutRule := by
  intro i s t v k found hi hv ho h
  rw [exec_eq_answer hi.1 hv ho] at h
  cases h
  simp only [State.answer_block, State.answer_frames]
  have delivers : ∀ {r : Reply} {e : Samples}, r.Delivers e →
      r.block.samples = e ∧ s.frames ++ r.frame.toList = s.frames ++ [r.block.samples] :=
    fun h => ⟨h.samples, by simp [h.frame, h.samples]⟩
  by_cases hd : i = .decode
  · subst hd
    rcases closedReply_decode_delivery s.block v k found with h | h
    · simpa [h.result] using delivers h
    · simp [h.result, h.samples, h.frame]
  · by_cases hc : i = .cycle
    · subst hc
      rcases closedReply_cycle_delivery s.block v k found with h | h
      · simpa [h.result] using delivers h
      · simp [h.result, h.samples, h.frame]
    · have h := closedReply_keepsSamples (b := s.block) (v := v) (k := k) (found := found) hd hc
      simp [hd, hc, h.samples, h.frame]

/-- Settles O21: a reset clears the counters, a command's word counts as its closed reply does, an illegal word counts
one. -/
theorem eventCounterRule : Obligations.EventCounterRule := by
  refine ⟨fun s t es hp h => ?_, fun s t w es v k found hi hp hv ho h => ?_⟩
  · rw [step_reset hp] at h
    cases h
    rfl
  · rcases step_command_cases hi hp hv ho with ⟨i, rfl, h'⟩ | ⟨hw, h'⟩ <;> rw [h'] at h <;> cases h
    · have hill : ¬ (isReadInstr i = false ∧ (closedReply s.block v k found i).block.result = .illegal) :=
        fun ⟨hr, he⟩ => (closedReply_response hr).2 he
      simp only [isReadWord_encode, encode_eq_scanWord, encode_eq_cycleWord, encode_lowByte_write, State.answer_block,
        if_neg hill]
      rw [closedReply_counters]
      simp
    · have h3 : w ≠ 0x0003#16 := ne_encode_of_illegal hw .scan
      have h5 : w ≠ 0x0005#16 := ne_encode_of_illegal hw .cycle
      simp [State.raiseIllegal, raise, Counters.countResult, Counters.addIllegal, isReadWord_of_illegal hw, h3, h5]

end Sys2Proof.Machine

/-! # ROOM, the register map and STATUS -/

namespace Sys2Proof.Machine

section Writes
variable {s : State} {v : List Byte}

/-- A WRITE to a view with room is accepted: it answers OK and appends its byte (R61, R63). -/
theorem exec_write_accepted (hi : s.Inv) (hv : s.block.view? = some v) (hl : v.length < 256) (x : Byte) :
    ∃ t, exec (.write x) s = .next t ∧ t.Inv ∧ t.block.view? = some (v ++ [x]) ∧
      t.responses = s.responses ++ [0#32] := by
  have hlen : s.block.lengthN ≠ 256 := by rw [← Block.view_length hv]; omega
  obtain ⟨k, f, ho⟩ := exists_scanOutcome hv
  have h := exec_eq_answer hi.1 hv ho (.write x)
  obtain ⟨-, hcv, hct⟩ := hi.1.roomMade hv hlen
  simp only [closedReply, if_neg hlen] at h
  exact ⟨_, h, hi.exec h, Block.view_appended hcv hct x, rfl⟩

/-- A WRITE to the full view ends with OVERFLOW and keeps the view (R61). -/
theorem exec_write_full (hi : s.Inv) (hv : s.block.view? = some v) (hl : v.length = 256) (x : Byte) :
    ∃ t, exec (.write x) s = .next t ∧ t.block.result = .overflow ∧ t.block.view? = some v := by
  have hlen : s.block.lengthN = 256 := by rw [← Block.view_length hv]; exact hl
  obtain ⟨k, f, ho⟩ := exists_scanOutcome hv
  have h := exec_eq_answer hi.1 hv ho (.write x)
  simp only [closedReply, if_pos hlen] at h
  exact ⟨_, h, rfl, hv⟩

theorem execAll_cons {t : State} {i : Instr} (h : exec i s = .next t) (is : List Instr) :
    execAll (i :: is) s = execAll is t := by simp only [execAll, h]

/-- WRITEs that fit are all accepted (R25). -/
theorem execAll_writes (hi : s.Inv) (hv : s.block.view? = some v) (bs : List Byte) (hl : v.length + bs.length ≤ 256) :
    ∃ t, execAll (bs.map .write) s = .next t ∧ t.Inv ∧ t.block.view? = some (v ++ bs) ∧
      t.responses = s.responses ++ List.replicate bs.length 0#32 := by
  induction bs generalizing s v with
  | nil => exact ⟨s, rfl, hi, by simpa using hv, by simp⟩
  | cons x bs ih =>
    rw [List.length_cons] at hl
    obtain ⟨u, hu, hui, huv, hur⟩ := exec_write_accepted hi hv (by omega) x
    obtain ⟨t, ht, hti, htv, htr⟩ := ih hui huv (by rw [List.length_append, List.length_singleton]; omega)
    refine ⟨t, (execAll_cons hu _).trans ht, hti, by simpa using htv, ?_⟩
    rw [htr, hur, List.length_cons, List.replicate_succ, List.append_assoc, List.singleton_append]

end Writes

/-- Settles O33: the WRITEs up to ROOM are accepted one by one, and the view they leave is full after exactly ROOM. -/
theorem roomIsTheNumberOfAcceptedWrites : Obligations.RoomIsTheNumberOfAcceptedWrites := by
  intro s v bs hi hv hb
  have hf := hi.1.fits
  have hl := Block.view_length hv
  have hroom : s.block.room = 256 - s.block.lengthN := rfl
  have hfree : s.block.free = 256 - (s.block.startN + s.block.lengthN) := rfl
  obtain ⟨t, ht, hti, htv, htr⟩ := execAll_writes hi hv bs (by omega)
  refine ⟨Nat.sub_add_cancel hf, Nat.sub_add_cancel (Nat.le_trans (Nat.le_add_left _ _) hf), t, ht, htv, htr,
    fun he x => ?_⟩
  exact exec_write_full hti htv (by rw [List.length_append]; omega) x

/-! ## The register map -/

theorem regOfIndex_regIndex (r : Reg) : regOfIndex (regIndex r) = some r := by cases r <;> rfl

/-- The index of a mapped register is the map's. -/
theorem eq_regIndex_of_regOfIndex {n : Byte} {r : Reg} (h : regOfIndex n = some r) : n = regIndex r := by
  unfold regOfIndex at h
  split at h <;> cases h <;> exact BitVec.eq_of_toNat_eq (by assumption)

@[simp] theorem Block.readReg_regIndex (b : Block) (r : Reg) : b.readReg (regIndex r) = b.regValue r := by
  simp only [Block.readReg, regOfIndex_regIndex]

/-- The reset value of each register (R28, R30). -/
def resetValue : Reg → Word
  | .free | .room => 256#32
  | .param        => 0xAA530100#32
  | _             => 0#32

theorem Block.reset_regValue (r : Reg) : Block.reset.regValue r = resetValue r := by cases r <;> rfl

/-- The register map's reset column, by index (R28, R30). -/
theorem Block.reset_readReg (n : Byte) : Block.reset.readReg n =
    if n = 0x03#8 ∨ n = 0x0A#8 then 256#32 else if n = 0x04#8 then 0xAA530100#32 else 0#32 := by
  cases hr : regOfIndex n with
  | some r =>
    obtain rfl := eq_regIndex_of_regOfIndex hr
    rw [Block.readReg_regIndex, Block.reset_regValue]
    cases r <;> rfl
  | none =>
    have hn : ∀ r, n ≠ regIndex r := by
      rintro r rfl
      simp [regOfIndex_regIndex] at hr
    have hfr : ¬ (n = 0x03#8 ∨ n = 0x0A#8) := not_or.2 ⟨hn .free, hn .room⟩
    have hp : n ≠ 0x04#8 := hn .param
    rw [if_neg hfr, if_neg hp]
    simp only [Block.readReg, hr]

/-- The unmapped indices (R28). -/
theorem regOfIndex_unmapped {n : Byte} (h : 0x0A < n.toNat ∧ n.toNat < 0x10 ∨ 0x14 < n.toNat) :
    regOfIndex n = none := by
  unfold regOfIndex
  split
  case h_17 => rfl
  all_goals omega

theorem rdreg_ends (n : Byte) (s : State) : Ends (.rdreg n) s s.block (s.block.readReg n) [] := by
  simp [Ends, exec_eq_transact, replyOf, rdregReply, State.transact, State.answer, respond]

/-- Settles O10: the step is the reset block's, whose registers read the reset column. -/
theorem resetGivesEveryRegisterItsResetValue : Obligations.ResetGivesEveryRegisterItsResetValue := by
  intro s es hp
  exact ⟨_, step_reset hp, rfl, rfl, rfl, rfl, rfl, rfl, rfl, rfl, rfl, rfl,
    (show Block.reset.status = 0#32 by decide), rfl, Block.reset_readReg⟩

section Values
variable {b : Block} {n : Byte} (r : Reg)

theorem readReg_of_eq (h : n = regIndex r) : b.readReg n = b.regValue r := h ▸ b.readReg_regIndex r

/-- A register narrower than the response reads zero-extended, so with its own value. -/
theorem readReg_toNat_of_setWidth {m : Nat} {x : BitVec m} (hm : m ≤ 32) (hx : b.regValue r = x.setWidth 32)
    (h : n = regIndex r) : (b.readReg n).toNat = x.toNat := by
  rw [readReg_of_eq r h, hx, BitVec.toNat_setWidth_of_le hm]

/-- FREE and ROOM read as themselves: they are at most CAP (R25). -/
theorem readReg_toNat_of_ofNat {m : Nat} (hm : m ≤ 256) (hx : b.regValue r = BitVec.ofNat 32 m)
    (h : n = regIndex r) : (b.readReg n).toNat = m := by
  rw [readReg_of_eq r h, hx, BitVec.toNat_ofNat, Nat.mod_eq_of_lt (by omega)]

end Values

/-- Settles O43: each index of the map through the register it names, the rest through the unmapped indices. -/
theorem rdregAnswersTheRegisterMap : Obligations.RdregAnswersTheRegisterMap := by
  refine ⟨fun n => ?_, fun s n => ⟨packFields_eq_append 7#4 n, s.block.readReg n, rdreg_ends n s, ?_⟩⟩
  · rw [← Block.reset_readReg]
    exact rdreg_ends n State.reset
  · exact ⟨readReg_of_eq .status,
      readReg_toNat_of_setWidth .start (by decide) rfl,
      readReg_toNat_of_setWidth .length (by decide) rfl,
      readReg_toNat_of_ofNat .free (Nat.sub_le _ _) rfl,
      readReg_of_eq .param, readReg_of_eq .frameCount, readReg_of_eq .discardCount, readReg_of_eq .misalignCount,
      readReg_of_eq .overflowCount, readReg_of_eq .illegalCount,
      readReg_toNat_of_ofNat .room (Nat.sub_le _ _) rfl,
      readReg_toNat_of_setWidth .sample0 (by decide) rfl,
      readReg_toNat_of_setWidth .sample1 (by decide) rfl,
      readReg_toNat_of_setWidth .sample2 (by decide) rfl,
      readReg_toNat_of_setWidth .sample3 (by decide) rfl,
      readReg_toNat_of_setWidth .sample4 (by decide) rfl,
      fun h => by simp only [Block.readReg, regOfIndex_unmapped h]⟩

/-! ## STATUS -/

/-- The bits of a word laid out as STATUS is (R29). -/
theorem statusFields_bit (res : BitVec 4) (st : BitVec 2) (sv sy : Bool) (i : Nat) :
    (0#24 ++ res ++ st ++ BitVec.ofBool sv ++ BitVec.ofBool sy : BitVec 32).getLsbD i =
      if i = 0 then sy else if i = 1 then sv else if i < 4 then st.getLsbD (i - 2) else res.getLsbD (i - 4) := by
  simp only [BitVec.getLsbD_append, BitVec.getLsbD_ofBool]
  match i with
  | 0 => simp
  | 1 => simp
  | i + 2 =>
    by_cases h2 : i < 2
    · simp [h2]
    · by_cases h4 : i - 2 < 4
      · simp [h2, h4, show ¬ i + 2 < 4 by omega]
      · simp [h2, h4, show ¬ i + 2 < 4 by omega, BitVec.getLsbD_of_ge res (i - 2) (by omega)]

theorem SyncState.code_toNat (b : Block) : b.syncState.code.toNat =
    if b.sync then (if b.lengthN < 13 then 1 else 2) else 0 := by
  unfold Block.syncState
  split
  · split <;> rfl
  · rfl

theorem ResultCode.code_le (c : ResultCode) : c.code.toNat ≤ 7 := by cases c <;> decide

section Status
variable (b : Block)

theorem Block.status_bit (i : Nat) : b.status.getLsbD i =
    if i = 0 then b.sync else if i = 1 then b.svalid else if i < 4 then b.syncState.code.getLsbD (i - 2)
    else b.result.code.getLsbD (i - 4) :=
  statusFields_bit _ _ _ _ i

theorem Block.status_state : b.status.extractLsb' 2 2 = b.syncState.code := by
  apply BitVec.eq_of_getLsbD_eq
  intro i hi
  rw [BitVec.getLsbD_extractLsb', Block.status_bit]
  simp [hi, show 2 + i ≠ 1 by omega, show 2 + i < 4 by omega]

theorem Block.status_result : b.status.extractLsb' 4 4 = b.result.code := by
  apply BitVec.eq_of_getLsbD_eq
  intro i hi
  rw [BitVec.getLsbD_extractLsb', Block.status_bit]
  simp [hi, show 4 + i ≠ 1 by omega]

theorem Block.status_upper : b.status.extractLsb' 8 24 = 0#24 := by
  apply BitVec.eq_of_getLsbD_eq
  intro i hi
  rw [BitVec.getLsbD_extractLsb', Block.status_bit]
  simp [hi, show 8 + i ≠ 1 by omega, show ¬ 8 + i < 4 by omega,
    BitVec.getLsbD_of_ge b.result.code (8 + i - 4) (by omega)]

end Status

/-- Settles O44: the response is STATUS, read field by field. -/
theorem statusFields : Obligations.StatusFields := by
  refine ⟨rdreg_ends 0#8 State.reset, fun s => ⟨s.block.status, rdreg_ends 0#8 s, ?_⟩⟩
  have hst := SyncState.code_toNat s.block
  rw [Block.status_state, Block.status_result, Block.status_upper]
  refine ⟨s.block.status_bit 0, s.block.status_bit 1, hst, ?_, rfl, ResultCode.code_le _, rfl⟩
  rw [hst]
  split
  · split <;> decide
  · decide

end Sys2Proof.Machine

/-! # Memory: multi-byte reads, and what a command does when it is issued twice -/

namespace Sys2Proof.Machine

/-! ## Multi-byte reads are big-endian -/

theorem bigEndian_concat (vs : List Byte) (x : Byte) : bigEndian (vs ++ [x]) = bigEndian vs * 256 + x.toNat := by
  simp [bigEndian]

/-- A big-endian value as the sum of its digits in base 256 (R37). -/
theorem bigEndian_map_range (f : Nat → Byte) (n : Nat) :
    bigEndian ((List.range n).map f) = ∑ i ∈ Finset.range n, (f i).toNat * 256 ^ (n - 1 - i) := by
  induction n with
  | zero => rfl
  | succ n ih =>
    have shift : ∀ i ∈ Finset.range n,
        (f i).toNat * 256 ^ (n - 1 - i) * 256 = (f i).toNat * 256 ^ (n + 1 - 1 - i) := by
      intro i hi
      have he : n + 1 - 1 - i = n - 1 - i + 1 := by have := Finset.mem_range.1 hi; omega
      rw [he, pow_succ, mul_assoc]
    rw [List.range_succ, List.map_append, List.map_singleton, bigEndian_concat, ih, Finset.sum_range_succ,
      Finset.sum_mul, Finset.sum_congr rfl shift]
    simp

/-- MemRead answers the big-endian value of the bytes it reads (R37). -/
theorem Memory.memRead_of_reads {m : Memory} {a : Nat} {vs : List Byte}
    (h : ∀ i < vs.length, m.read (a + i) = vs[i]?) : m.memRead a vs.length = some (bigEndian vs) := by
  rw [Memory.memRead, Memory.readBytes_eq_some.2 ⟨rfl, h⟩, Option.map_some]

theorem bigEndian_pair_append (x y : Byte) : bigEndian [x, y] = (x ++ y : BitVec 16).toNat := by
  rw [bigEndian_pair, ← bytePair_toNat, BitVec.toNat_ofNat, Nat.mod_eq_of_lt]
  have hx := x.isLt
  have hy := y.isLt
  omega

/-- Settles O23: MemRead is the big-endian value of its bytes, whose closed forms are the three clauses. -/
theorem memoryReadsAreBigEndian : Obligations.MemoryReadsAreBigEndian := by
  refine ⟨fun m a n f h => ?_, fun m a h l hh hl => ?_, fun m a x y z hx hy hz => ?_⟩
  · have hr := Memory.memRead_of_reads (m := m) (a := a) (vs := (List.range n).map f) fun i hi => by
      have hi' : i < n := by simpa using hi
      simp [h i hi', hi']
    rwa [List.length_map, List.length_range, bigEndian_map_range] at hr
  · rw [← bigEndian_pair_append]
    exact Memory.memRead_of_reads (vs := [h, l]) fun i hi => by
      match i, hi with
      | 0, _ => exact hh
      | 1, _ => exact hl
  · have hr : m.memRead a 3 = some (bigEndian [x, y, z]) := Memory.memRead_of_reads (vs := [x, y, z]) fun i hi => by
      match i, hi with
      | 0, _ => exact hx
      | 1, _ => exact hy
      | 2, _ => exact hz
    rw [hr, Option.some_inj]
    exact bigEndian_eq_preamble x y z

/-! ## Commands that repeat their reply -/

section Twice
variable {b : Block} {r : Reply} {s t u : State} {v : List Byte} {k : Nat} {found : Bool} {i : Instr}

/-- The command, issued again on the block its reply `r` leaves, replies `r` again (R42). -/
def Reply.Repeats (r : Reply) (i : Instr) : Prop := replyOf i r.block = .ok r

/-- A command whose reply repeats, issued twice, delivers that reply twice. -/
theorem exec_twice (hr : replyOf i s.block = .ok r) (hrep : r.Repeats i) (ht : exec i s = .next t)
    (hu : exec i t = .next u) : t = s.answer r ∧ u = t.answer r := by
  obtain ⟨r₁, h₁, rfl⟩ := exec_eq_next.1 ht
  obtain rfl : r = r₁ := Except.ok.inj (hr.symm.trans h₁)
  obtain ⟨r₂, h₂, rfl⟩ := exec_eq_next.1 hu
  obtain rfl : r = r₂ := Except.ok.inj (hrep.symm.trans h₂)
  exact ⟨rfl, rfl⟩

/-- RDREG and RDVIEW only respond: the reply's block is the block read (R74, R75). -/
theorem closedReply_read (b : Block) (v : List Byte) (k : Nat) (found : Bool) (hr : isReadInstr i = true) :
    ∃ x, closedReply b v k found i = respond b x := by
  cases i with
  | rdreg n | rdview n => exact ⟨_, rfl⟩
  | nop | clear | write x | scan | decode | cycle | compact => cases hr

/-- Bytes written twice to the same indices are as written once. -/
theorem Memory.writeBytes_writeBytes {m : Memory} {a : Nat} {vs : List Byte} (hm : m.wf = true)
    (ha : a + vs.length ≤ Config.cap) : (m.writeBytes a vs).writeBytes a vs = m.writeBytes a vs := by
  have h1 := Memory.wf_writeBytes hm ha
  refine Memory.ext_of_read (Memory.wf_writeBytes h1 ha) h1 fun x => ?_
  rw [Memory.read_writeBytes (m.writeBytes a vs)]
  split
  · next hx => rw [Memory.read_writeBytes, if_pos hx]
  · rfl

theorem Block.discard_zero (b : Block) : b.discard 0 = b := by
  simp [Block.discard, Block.setStart, Block.setLength, Block.setCounters, Counters.addDiscard, Block.startN,
    Block.lengthN]

/-- Scanning what a scan has left discards nothing more and finds the same (R65). -/
theorem ScanOutcome.drop (h : ScanOutcome v k found) : ScanOutcome (v.drop k) 0 found := by
  cases found with
  | true => simpa [ScanOutcome, hasPreamble_drop] using h.found.1
  | false =>
    obtain ⟨hk, hn⟩ := h.notFound
    simp only [ScanOutcome, Bool.false_eq_true, if_false, List.length_drop, hasPreamble_drop]
    exact ⟨by omega, fun j => hn (k + j)⟩

theorem compact_repeats (hi : b.Inv) (hv : b.view? = some v) : (closedReply b v k found .compact).Repeats .compact := by
  have hl := Block.view_length hv
  have hf := hi.fits
  have hm := Memory.writeBytes_writeBytes (a := 0) (vs := v) hi.1 (show 0 + v.length ≤ 256 by omega)
  have hv' : (closedReply b v k found .compact).block.view? = some v := Block.compacted_view hv
  refine (compactReply_spec hv').trans (congrArg Except.ok ?_)
  show finish ((b.setWindow ((b.window.writeBytes 0 v).writeBytes 0 v)).setStart 0) .ok = finish (b.compacted v) .ok
  rw [hm]
  rfl

theorem scan_repeats (hi : b.Inv) (hv : b.view? = some v) (ho : ScanOutcome v k found) :
    (closedReply b v k found .scan).Repeats .scan := by
  have hk : k ≤ b.lengthN := by have := ho.le; have := Block.view_length hv; omega
  have hv' : (closedReply b v k found .scan).block.view? = some (v.drop k) := Block.view_discard hv hi.fits hk
  obtain ⟨k', found', ho', h⟩ := scanReply_spec hv'
  obtain ⟨rfl, rfl⟩ := ho.drop.unique ho'
  rw [Block.discard_zero] at h
  exact h

/-- NOP, CLEAR, COMPACT and SCAN are idempotent on the block (R42). -/
theorem closedReply_repeats (hi : b.Inv) (hv : b.view? = some v) (ho : ScanOutcome v k found)
    (h : i ∈ [.nop, .clear, .compact, .scan]) : (closedReply b v k found i).Repeats i := by
  simp only [List.mem_cons, List.not_mem_nil, or_false] at h
  rcases h with rfl | rfl | rfl | rfl
  · rfl
  · rfl
  · exact compact_repeats hi hv
  · exact scan_repeats hi hv ho

/-- A read issued twice responds the same word twice and changes no other part of the machine (R42). -/
theorem exec_read_twice (hi : s.Inv) (hr : isReadInstr i = true) (ht : exec i s = .next t) (hu : exec i t = .next u) :
    ∃ x, t = s.answer (respond s.block x) ∧ u = t.answer (respond s.block x) := by
  obtain ⟨v, hv⟩ := hi.1.exists_view
  obtain ⟨k, f, ho⟩ := exists_scanOutcome hv
  obtain ⟨x, hx⟩ := closedReply_read s.block v k f hr
  have h := replyOf_eq_closedReply hi.1 hv ho i
  rw [hx] at h
  exact ⟨x, exec_twice h h ht hu⟩

/-- NOP, CLEAR, COMPACT and SCAN issued twice leave the block as once, and the second emits no event (R42). -/
theorem exec_idempotent (hi : s.Inv) (h : i ∈ [.nop, .clear, .compact, .scan]) (ht : exec i s = .next t)
    (hu : exec i t = .next u) : u.block = t.block ∧ u.frames = t.frames := by
  obtain ⟨v, hv⟩ := hi.1.exists_view
  obtain ⟨k, f, ho⟩ := exists_scanOutcome hv
  have hframe : (closedReply s.block v k f i).frame = none :=
    (closedReply_keepsSamples (by rintro rfl; simp at h) (by rintro rfl; simp at h)).frame
  obtain ⟨rfl, rfl⟩ := exec_twice (replyOf_eq_closedReply hi.1 hv ho i) (closedReply_repeats hi.1 hv ho h) ht hu
  exact ⟨rfl, by rw [State.answer_frames, hframe, Option.toList_none, List.append_nil]⟩

/-- Two WRITEs to a view with room for both append both bytes. -/
theorem exec_write_twice (hi : s.Inv) (hv : s.block.view? = some v) (hl : v.length < 255) {x y : Byte}
    (ht : exec (.write x) s = .next t) (hu : exec (.write y) t = .next u) : u.block.view? = some (v ++ [x, y]) := by
  obtain ⟨t', ht', hti, htv, -⟩ := exec_write_accepted hi hv (by omega) x
  cases ht'.symm.trans ht
  have hl' : (v ++ [x]).length < 256 := by rw [List.length_append, List.length_singleton]; omega
  obtain ⟨u', hu', -, huv, -⟩ := exec_write_accepted hti htv hl' y
  cases hu'.symm.trans hu
  rw [huv, List.append_assoc, List.singleton_append]

/-- A DECODE or CYCLE that ends with DECODED counts one frame and emits the samples it stored (R24, R26). -/
theorem exec_decoded (hi : s.Inv) (h : i = .decode ∨ i = .cycle) (ht : exec i s = .next t)
    (hd : t.block.result = .decoded) :
    t.block.counters.frame = s.block.counters.frame + 1#32 ∧ t.frames = s.frames ++ [t.block.samples] := by
  obtain ⟨v, hv⟩ := hi.1.exists_view
  obtain ⟨k, f, ho⟩ := exists_scanOutcome hv
  have hr : isReadInstr i = false := by rcases h with rfl | rfl <;> rfl
  have hframes := samplesAndFrameOutRule i s t v k f hi hv ho ht
  rw [if_pos ⟨h, hd⟩] at hframes
  refine ⟨?_, hframes.2⟩
  cases (exec_eq_answer hi.1 hv ho i).symm.trans ht
  rw [State.answer_block] at hd ⊢
  rw [closedReply_counters, if_pos ⟨hr, hd⟩]

end Twice

/-- Settles O26: the two reads and the four idempotent commands repeat their reply; WRITE, DECODE and CYCLE do not. -/
theorem readsHaveNoSideEffectAndIdempotence : Obligations.ReadsHaveNoSideEffectAndIdempotence := by
  intro s t u hi
  refine ⟨fun n i h ht hu => ?_, fun i h ht hu => exec_idempotent hi h ht hu,
    fun x v hv hl ht hu => exec_write_twice hi hv hl ht hu, fun i h ht hd => exec_decoded hi h ht hd⟩
  have hr : isReadInstr i = true := by rcases h with rfl | rfl <;> rfl
  obtain ⟨x, rfl, rfl⟩ := exec_read_twice hi hr ht hu
  exact ⟨rfl, by simp [respond], rfl, rfl, by simp⟩

end Sys2Proof.Machine

/-! # The opcode map: the words of a row, the legal fields and the number of legal words -/

namespace Sys2Proof

/-- Every command meets the statement of its kind about its row (30_encoding.md R53). -/
theorem rowMatch (i : Instr) : Laws.RowMatch.Statement i := by
  cases i with
  | nop => exact Laws.RowMatch.nop
  | clear => exact Laws.RowMatch.clear
  | write x => exact Laws.RowMatch.write x
  | scan => exact Laws.RowMatch.scan
  | decode => exact Laws.RowMatch.decode
  | cycle => exact Laws.RowMatch.cycle
  | compact => exact Laws.RowMatch.compact
  | rdreg n => exact Laws.RowMatch.rdreg n
  | rdview n => exact Laws.RowMatch.rdview n

/-- Among the rows of the map a command's word matches exactly the command's own. -/
theorem covers_encode_iff (i : Instr) (r : OpcodeRow) :
    (r ∈ opcodeTable ∧ r.covers (encode i) = true) ↔ r = rowOf i := by
  obtain ⟨-, hrows, -⟩ := rowMatch i
  have hmem : r ∈ opcodeTable.filter (fun r => r.covers (encode i)) ↔ r ∈ opcodeTable ∧ r.covers (encode i) = true :=
    List.mem_filter
  rw [← hmem, hrows, List.mem_singleton]

theorem exists_rowOf_of_mem {r : OpcodeRow} (h : r ∈ opcodeTable) : ∃ i, r = rowOf i := by
  simp only [opcodeTable, List.mem_cons, List.not_mem_nil, or_false] at h
  rcases h with h | h | h | h | h | h | h | h | h <;> exact ⟨_, h⟩

/-- A row whose mask is full matches its own bits only. -/
theorem eq_of_covers_fullMask {m : String} {bits w : CmdWord}
    (h : (OpcodeRow.mk m bits 0xFFFF#16).covers w = true) : w = bits :=
  (BitVec.and_allOnes (x := w)).symm.trans (beq_iff_eq.1 h)

/-- A row whose mask is the low byte matches one word for each IMM. -/
theorem eq_packFields_of_covers_lowByte {m : String} {op : BitVec 4} {w : CmdWord}
    (h : (OpcodeRow.mk m (op.setWidth 16) 0x00FF#16).covers w = true) : w = packFields op (w.extractLsb' 8 8) :=
  eq_packFields_of_lowByte (beq_iff_eq.1 h)

/-- A word that matches a command's row is the word of a command: the same one, or one of the same row. -/
theorem exists_encode_of_covers {i : Instr} {w : CmdWord} (h : (rowOf i).covers w = true) : ∃ j, w = encode j := by
  cases i with
  | nop => exact ⟨.nop, eq_of_covers_fullMask h⟩
  | clear => exact ⟨.clear, eq_of_covers_fullMask h⟩
  | scan => exact ⟨.scan, eq_of_covers_fullMask h⟩
  | decode => exact ⟨.decode, eq_of_covers_fullMask h⟩
  | cycle => exact ⟨.cycle, eq_of_covers_fullMask h⟩
  | compact => exact ⟨.compact, eq_of_covers_fullMask h⟩
  | write _ => exact ⟨.write _, eq_packFields_of_covers_lowByte (op := 2#4) h⟩
  | rdreg _ => exact ⟨.rdreg _, eq_packFields_of_covers_lowByte (op := 7#4) h⟩
  | rdview _ => exact ⟨.rdview _, eq_packFields_of_covers_lowByte (op := 8#4) h⟩

/-- The legal words are the commands' words (R55). -/
theorem isLegal_iff_exists_encode {w : CmdWord} : isLegal w = true ↔ ∃ i, w = encode i := by
  refine ⟨fun h => ?_, ?_⟩
  · cases hd : decode w with
    | ok i => exact ⟨i, eq_encode_of_decode hd⟩
    | error r => exact absurd (isLegal_eq_false_of_error hd) (by simp [h])
  · rintro ⟨i, rfl⟩
    exact isLegal_encode i

/-! ## The legal fields -/

theorem RawCommand.wellFormed_iff (c : RawCommand) :
    c.wellFormed = true ↔ c.op.toNat ≤ 8 ∧ c.rsv = 0#4 ∧ (c.takesImm = false → c.imm = 0#8) := by
  cases h : c.takesImm <;> simp [wellFormed, opKnown, rsvClear, immAllowed, h, and_assoc]

/-- The six commands without an operand, by OP (R55). -/
theorem RawCommand.takesImm_eq_false_iff {c : RawCommand} (h : c.op.toNat ≤ 8) :
    c.takesImm = false ↔ c.op.toNat ∈ [0, 1, 3, 4, 5, 6] := by
  have hplain : ∀ op : BitVec 4, op.toNat ≤ 8 →
      ((op == 2#4 || op == 7#4 || op == 8#4) = false ↔ op.toNat ∈ [0, 1, 3, 4, 5, 6]) := by decide
  exact hplain c.op h

/-- The three ways to be illegal are the negation of the three checks (R55). -/
theorem RawCommand.wellFormed_eq_false_iff (c : RawCommand) :
    c.wellFormed = false ↔
      (9 ≤ c.op.toNat ∨ c.rsv ≠ 0#4 ∨ (c.op.toNat ∈ [0, 1, 3, 4, 5, 6] ∧ c.imm ≠ 0#8)) := by
  rw [← Bool.not_eq_true, c.wellFormed_iff]
  by_cases h : c.op.toNat ≤ 8
  · rw [← takesImm_eq_false_iff h]
    have h9 : ¬ 9 ≤ c.op.toNat := by omega
    simp only [h, h9, true_and, false_or, not_and_or, Classical.not_imp, ne_eq]
  · have h9 : 9 ≤ c.op.toNat := by omega
    simp [h, h9]

theorem opcode_cases {op : BitVec 4} (h : op.toNat ≤ 8) :
    op = 0#4 ∨ op = 1#4 ∨ op = 2#4 ∨ op = 3#4 ∨ op = 4#4 ∨ op = 5#4 ∨ op = 6#4 ∨ op = 7#4 ∨ op = 8#4 := by
  revert op
  decide

/-- Fields that pass the three checks are those of a command's word. -/
theorem exists_encode_of_wellFormed {w : CmdWord} (h : (fieldsOf w).wellFormed = true) : ∃ i, w = encode i := by
  obtain ⟨hop, hrsv, himm⟩ := (fieldsOf w).wellFormed_iff.1 h
  rw [packFields_fieldsOf hrsv]
  generalize fieldsOf w = c at hop himm
  obtain ⟨op, rsv, imm⟩ := c
  rcases opcode_cases hop with rfl | rfl | rfl | rfl | rfl | rfl | rfl | rfl | rfl
  · obtain rfl := himm rfl; exact ⟨.nop, rfl⟩
  · obtain rfl := himm rfl; exact ⟨.clear, rfl⟩
  · exact ⟨.write imm, rfl⟩
  · obtain rfl := himm rfl; exact ⟨.scan, rfl⟩
  · obtain rfl := himm rfl; exact ⟨.decode, rfl⟩
  · obtain rfl := himm rfl; exact ⟨.cycle, rfl⟩
  · obtain rfl := himm rfl; exact ⟨.compact, rfl⟩
  · exact ⟨.rdreg imm, rfl⟩
  · exact ⟨.rdview imm, rfl⟩

/-- The decoder accepts a word exactly when its fields pass the three checks (R55). -/
theorem isLegal_eq_wellFormed (w : CmdWord) : isLegal w = (fieldsOf w).wellFormed := by
  rw [Bool.eq_iff_iff, isLegal_iff_exists_encode]
  refine ⟨?_, exists_encode_of_wellFormed⟩
  rintro ⟨i, rfl⟩
  obtain ⟨-, -, hwf⟩ := rowMatch i
  exact hwf

/-! ## The number of legal words -/

/-- The six commands without an operand (R54). -/
def plainInstrs : Finset Instr := {.nop, .clear, .scan, .decode, .cycle, .compact}

theorem plainInstrs_card : plainInstrs.card = 6 := by decide

/-- A command with each of its operands (R54). -/
def withOperand (f : Byte → Instr) : Finset Instr := Finset.univ.image f

theorem mem_withOperand {f : Byte → Instr} {i : Instr} : i ∈ withOperand f ↔ ∃ x, f x = i := by simp [withOperand]

theorem byte_card : Fintype.card Byte = 256 := by
  rw [← FinEnum.card_eq_fintypeCard, FinEnum.card_bitVec]
  norm_num

theorem withOperand_card {f : Byte → Instr} (hf : Function.Injective f) : (withOperand f).card = 256 := by
  rw [withOperand, Finset.card_image_of_injective _ hf, Finset.card_univ, byte_card]

/-- All commands with all their operands (R53, R54). -/
def allInstrs : Finset Instr :=
  plainInstrs ∪ (withOperand .write ∪ (withOperand .rdreg ∪ withOperand .rdview))

theorem mem_allInstrs (i : Instr) : i ∈ allInstrs := by
  simp only [allInstrs, Finset.mem_union, mem_withOperand]
  cases i with
  | nop | clear | scan | decode | cycle | compact => exact .inl (by decide)
  | write x => exact .inr (.inl ⟨x, rfl⟩)
  | rdreg n => exact .inr (.inr (.inl ⟨n, rfl⟩))
  | rdview n => exact .inr (.inr (.inr ⟨n, rfl⟩))

theorem disjoint_withOperand {s : Finset Instr} {f : Byte → Instr} (h : ∀ x, f x ∉ s) : Disjoint s (withOperand f) := by
  refine Finset.disjoint_right.2 fun i hi => ?_
  obtain ⟨x, rfl⟩ := mem_withOperand.1 hi
  exact h x

theorem plainInstrs_disjoint_withOperand :
    Disjoint plainInstrs (withOperand .write ∪ (withOperand .rdreg ∪ withOperand .rdview)) := by
  simp only [Finset.disjoint_union_right]
  refine ⟨?_, ?_, ?_⟩ <;> exact disjoint_withOperand fun x => by simp [plainInstrs]

theorem allInstrs_card : allInstrs.card = 774 := by
  have hwrite : Disjoint (withOperand .write) (withOperand .rdreg ∪ withOperand .rdview) := by
    simp only [Finset.disjoint_union_right]
    refine ⟨?_, ?_⟩ <;> exact disjoint_withOperand fun x => by simp [mem_withOperand]
  have hread : Disjoint (withOperand .rdreg) (withOperand .rdview) :=
    disjoint_withOperand fun x => by simp [mem_withOperand]
  rw [allInstrs, Finset.card_union_of_disjoint plainInstrs_disjoint_withOperand,
    Finset.card_union_of_disjoint hwrite, Finset.card_union_of_disjoint hread, plainInstrs_card,
    withOperand_card (f := .write) fun _ _ => Instr.write.inj,
    withOperand_card (f := .rdreg) fun _ _ => Instr.rdreg.inj,
    withOperand_card (f := .rdview) fun _ _ => Instr.rdview.inj]

/-- The legal words are the words of all commands, one for each (R55). -/
theorem legalWords_eq_image : Finset.univ.filter (fun w : CmdWord => isLegal w = true) = allInstrs.image encode := by
  ext w
  simp only [Finset.mem_filter, Finset.mem_univ, true_and, Finset.mem_image, isLegal_iff_exists_encode, mem_allInstrs,
    eq_comm (a := w)]

theorem legalWords_card : (Finset.univ.filter (fun w : CmdWord => isLegal w = true)).card = 774 := by
  rw [legalWords_eq_image, Finset.card_image_of_injective _ fun _ _ => encode_inj.1, allInstrs_card]

end Sys2Proof

namespace Sys2Proof.Machine

/-- An illegal word in a state with a meaning raises ILLEGAL (R55, R79). -/
theorem runWord_illegal {s : State} {w : CmdWord} (hs : s.block.wellFormed = true) (hw : isLegal w = false) :
    runWord w s = .next s.raiseIllegal := by
  rw [runWord, if_pos hs]
  cases hd : decode w with
  | ok i => exact absurd (eq_encode_of_decode hd) (ne_encode_of_illegal hw i)
  | error r => rfl

/-- What raising ILLEGAL changes, and that nothing else changes (R78, R79). -/
theorem State.raiseIllegal_eq (s : State) :
    s.raiseIllegal = { s with
      responses := s.responses ++ [7#32],
      block := { s.block with
        result := .illegal,
        counters := { s.block.counters with illegal := s.block.counters.illegal + 1#32 } } } := by
  have hframes : s.frames ++ (none : Option Samples).toList = s.frames := List.append_nil _
  simp only [State.raiseIllegal, State.answer, raise, hframes]
  rfl

/-- Settles O2: a legal word is its command's, whose row is found alone; a word of a row is a word of some command. -/
theorem legalWordMatchesExactlyOneRow : Obligations.LegalWordMatchesExactlyOneRow := by
  refine fun w => ⟨fun i h => ?_, fun ⟨r, hr, hw⟩ => ?_⟩
  · obtain rfl := eq_encode_of_decode h
    obtain ⟨hmem, hcovers⟩ := (covers_encode_iff i (rowOf i)).2 rfl
    exact ⟨hmem, hcovers, fun r hr hw => (covers_encode_iff i r).1 ⟨hr, hw⟩⟩
  · obtain ⟨i, rfl⟩ := exists_rowOf_of_mem hr
    obtain ⟨j, rfl⟩ := exists_encode_of_covers hw
    exact ⟨j, decode_encode j⟩

/-- Settles O3: legality is the three checks on the fields, the legal words are counted as the commands they encode, and
the step of an illegal word is `raise ILLEGAL`. -/
theorem illegalWordsRaiseIllegal : Obligations.IllegalWordsRaiseIllegal := by
  refine ⟨fun w => ?_, legalWords_card, fun s w es hs hp hw => ?_⟩
  · rw [isLegal_eq_wellFormed]
    exact (fieldsOf w).wellFormed_eq_false_iff
  · have hs' : (s.setPending es).block.wellFormed = true := hs
    rw [step_command hp, runWord_illegal hs' hw, State.raiseIllegal_eq]
    rfl

end Sys2Proof.Machine

/-! # NOP, CLEAR, WRITE and COMPACT: how each completes -/

namespace Sys2Proof.Machine

/-- A command with a reply completes by delivering it (R50). -/
theorem ends_of_replyOf {i : Instr} {s : State} {r : Reply} (h : replyOf i s.block = .ok r) :
    Ends i s r.block r.response r.frame.toList :=
  exec_eq_next.2 ⟨r, h, rfl⟩

section WindowOps
variable {b : Block} {s : State} {v : List Byte}

/-! ## The window after the move and after the append -/

theorem Block.compacted_tail (b : Block) (v : List Byte) : (b.compacted v).tail = b.lengthN := Nat.zero_add _

/-- compact_core puts the view at index 0 and keeps every byte from LENGTH on (R62). -/
theorem Block.compacted_read (hv : b.view? = some v) (a : Nat) : (b.compacted v).window.read a =
    if a < b.lengthN then b.window.read (b.startN + a) else b.window.read a := by
  have hl := Block.view_length hv
  show (b.window.writeBytes 0 v).read a = _
  rw [Memory.read_writeBytes]
  by_cases ha : a < b.lengthN
  · rw [if_pos (by omega), if_pos ha, Block.view_read hv ha, Nat.sub_zero]
  · rw [if_neg (by omega), if_neg ha]

/-- With START = 0 compact_core moves nothing (R62). -/
theorem Block.compacted_window_of_start_zero (hi : b.Inv) (hv : b.view? = some v) (h0 : b.startN = 0) :
    (b.compacted v).window = b.window := by
  refine Memory.ext_of_read (hi.compacted hv).1 hi.1 fun a => ?_
  rw [Block.compacted_read hv, h0, Nat.zero_add, ite_self]

theorem Block.appended_read (b : Block) (x : Byte) (a : Nat) :
    (b.appended x).window.read a = if a = b.tail then some x else b.window.read a :=
  Memory.read_write _ _ _ _

/-- The append changes the window and adds 1 to LENGTH (R61). -/
theorem Block.appended_eq (b : Block) (x : Byte) :
    b.appended x = { b with window := (b.appended x).window, length := b.length + 1#9 } := by
  have hl : BitVec.ofNat 9 (b.lengthN + 1) = b.length + 1#9 := by
    rw [Block.lengthN, BitVec.ofNat_add, BitVec.ofNat_toNat, BitVec.setWidth_eq]
  rw [← hl]
  rfl

/-! ## The replies, delivered -/

/-- WRITE to the full view (R61 case c). -/
theorem write_ends_of_full (hi : s.Inv) (hl : s.block.lengthN = 256) (x : Byte) :
    Ends (.write x) s { s.block with
      result := .overflow,
      counters := { s.block.counters with overflow := s.block.counters.overflow + 1#32 } } 6#32 [] := by
  have hf := hi.1.fits
  exact ends_of_replyOf (i := .write x) (writeReply_overflow (by omega) hl x)

/-- WRITE with the tail before the end of the window (R61 case a). -/
theorem write_ends_of_tail_lt (ht : s.block.tail < 256) (x : Byte) :
    Ends (.write x) s
      { s.block with
        window := (s.block.appended x).window, length := s.block.length + 1#9, result := .ok } 0#32 [] := by
  have h : Ends (.write x) s ((s.block.appended x).setResult .ok) 0#32 [] :=
    ends_of_replyOf (i := .write x) (writeReply_append ht x)
  rwa [Block.appended_eq] at h

/-- WRITE with the tail at the end of the window and START > 0 appends to the moved view (R61 case b). -/
theorem write_ends_of_tail_eq (hv : s.block.view? = some v) (ht : s.block.tail = 256) (h0 : 0 < s.block.startN)
    (x : Byte) :
    Ends (.write x) s
      { s.block with
        window := ((s.block.compacted v).appended x).window, start := 0#9, length := s.block.length + 1#9,
        result := .ok } 0#32 [] := by
  have hr : writeReply x s.block = .ok (finish ((s.block.compacted v).appended x) .ok) := by
    rw [writeReply_compact hv h0 ht, Block.appended, Block.compacted_tail]
    rfl
  have h := ends_of_replyOf (i := .write x) hr
  rwa [Block.appended_eq] at h

/-- COMPACT (R62). -/
theorem compact_ends (hv : s.block.view? = some v) :
    Ends .compact s { s.block with window := (s.block.compacted v).window, start := 0#9, result := .ok } 0#32 [] :=
  ends_of_replyOf (i := .compact) (compactReply_spec hv)

end WindowOps

/-- Settles O27: NOP's reply is `finish(OK)` on the block as it is. -/
theorem nopWritesOnlyResult : Obligations.NopWritesOnlyResult :=
  ⟨rfl, fun _ => ends_of_replyOf (i := .nop) rfl⟩

/-- Settles O28: CLEAR's reply is `finish(OK)` on the block after clear_window. -/
theorem clearEmptiesTheWindow : Obligations.ClearEmptiesTheWindow :=
  ⟨rfl, fun _ => ends_of_replyOf (i := .clear) rfl⟩

/-- Settles O29: the three replies of WRITE, and what the window reads after the append and after the move. -/
theorem writeAppendsCompactsOrOverflows : Obligations.WriteAppendsCompactsOrOverflows := by
  intro s x hi
  obtain ⟨v, hv⟩ := hi.1.exists_view
  refine ⟨packFields_eq_append 2#4 x, fun hl => write_ends_of_full hi hl x, fun ht => ?_, fun ht h0 => ?_⟩
  · exact ⟨_, write_ends_of_tail_lt ht x, (hi.1.appended hv ht x).1, s.block.appended_read x⟩
  · have htc : (s.block.compacted v).tail < 256 := by
      show 0 + s.block.length.toNat < 256
      omega
    have hwf := ((hi.1.compacted hv).appended (Block.compacted_view hv) htc x).1
    refine ⟨_, write_ends_of_tail_eq hv ht h0 x, hwf, fun a => ?_⟩
    rw [Block.appended_read, Block.compacted_tail, Block.compacted_read hv]
    rfl

/-- Settles O30: COMPACT's reply is compact_core's block, whose window reads the view from index 0 on. -/
theorem compactMovesTheViewToZero : Obligations.CompactMovesTheViewToZero := by
  refine ⟨rfl, fun s hi => ?_⟩
  obtain ⟨v, hv⟩ := hi.1.exists_view
  exact ⟨_, compact_ends hv, (hi.1.compacted hv).1, Block.compacted_read hv,
    fun h0 => Block.compacted_window_of_start_zero hi.1 hv (congrArg BitVec.toNat h0)⟩

end Sys2Proof.Machine

/-! # SCAN: its exact end, and the laws of the synchronizer -/

namespace Sys2Proof.Machine

section Scan
variable {b : Block} {s t : State} {v : List Byte} {k : Nat} {found : Bool}

/-! ## Scan outcomes and preambles on the list of view bytes -/

/-- The `k` comparisons that fail and the one that succeeds are all at offsets with three view bytes (R65). -/
theorem ScanOutcome.comparisons_le (h : ScanOutcome v k found) : k + (if found then 1 else 0) ≤ v.length - 2 := by
  cases found with
  | true =>
    have := hasPreamble_bound h.found.1
    rw [if_pos rfl]
    omega
  | false => exact h.le

theorem hasPreamble_preamble_append (w : List Byte) : hasPreamble ([0xAA#8, 0xAA#8, 0xAA#8] ++ w) 0 = true := rfl

/-- Garbage in which no preamble starts, before a preamble, is what the scan discards (R67 a). -/
theorem scanOutcome_of_garbage {G T : List Byte}
    (hG : ∀ j < G.length, hasPreamble (G ++ [0xAA#8, 0xAA#8, 0xAA#8] ++ T) j = false) :
    ScanOutcome (G ++ [0xAA#8, 0xAA#8, 0xAA#8] ++ T) G.length true := by
  have hp : hasPreamble (G ++ [0xAA#8, 0xAA#8, 0xAA#8] ++ T) G.length = true := by
    have hd := hasPreamble_drop (G ++ ([0xAA#8, 0xAA#8, 0xAA#8] ++ T)) G.length 0
    rw [List.drop_left, hasPreamble_preamble_append, Nat.add_zero] at hd
    rw [List.append_assoc, ← hd]
  exact ⟨hp, hG⟩

/-- A preamble that starts only once more bytes have arrived starts in the last two bytes of the view or after them,
since an offset before those has its three bytes in the view already (R67 b). -/
theorem preamble_after_append_ge (hn : ∀ j, hasPreamble v j = false) {w : List Byte} {j : Nat}
    (hj : hasPreamble (v ++ w) j = true) : v.length - 2 ≤ j := by
  by_contra hlt
  rw [hasPreamble_append (by omega), hn j] at hj
  cases hj

/-- A preamble anywhere in the view is found (R67 d). -/
theorem ScanOutcome.found_of_hasPreamble (h : ScanOutcome v k found) {j : Nat} (hj : hasPreamble v j = true) :
    found = true := by
  cases found with
  | true => rfl
  | false => cases hj.symm.trans (h.notFound.2 j)

/-! ## How SCAN ends -/

/-- The block after scan_core, its counter and cursors written out (R64). -/
theorem Block.scanned_eq (hv : b.view? = some v) (k : Nat) (found : Bool) (c : ResultCode) :
    ((b.discard k).setSync found).setResult c = { b with
      start    := BitVec.ofNat 9 (b.start.toNat + k),
      length   := BitVec.ofNat 9 (v.length - k),
      sync     := found,
      result   := c,
      counters := { b.counters with discard := b.counters.discard + BitVec.ofNat 32 k } } := by
  rw [Block.view_length hv]
  rfl

/-- SCAN completes with the closed form of its scan (R65, R66). -/
theorem scan_ends (hv : s.block.view? = some v) :
    ∃ k found, ScanOutcome v k found ∧
      Ends .scan s { s.block with
          start    := BitVec.ofNat 9 (s.block.start.toNat + k),
          length   := BitVec.ofNat 9 (v.length - k),
          sync     := found,
          result   := if found then .found else .notFound,
          counters := { s.block.counters with discard := s.block.counters.discard + BitVec.ofNat 32 k } }
        (if found then 2#32 else 1#32) [] := by
  obtain ⟨k, found, ho, hr⟩ := scanReply_spec hv
  refine ⟨k, found, ho, ?_⟩
  have hw : (if found then ResultCode.found else .notFound).word = if found then 2#32 else 1#32 := by
    cases found <;> rfl
  rw [← Block.scanned_eq hv, ← hw]
  exact ends_of_replyOf (i := .scan) hr

/-- What a SCAN that completes has done to the block, by the outcome of its scan (R65, R66). -/
theorem exec_scan_inv (hi : s.Inv) (hv : s.block.view? = some v) (ho : ScanOutcome v k found)
    (ht : exec .scan s = .next t) :
    t.block.result = (if found then .found else .notFound) ∧
    t.block.view? = some (v.drop k) ∧
    t.block.start.toNat = s.block.start.toNat + k ∧
    t.block.window = s.block.window ∧
    t.block.counters.discard = s.block.counters.discard + BitVec.ofNat 32 k := by
  have hk : k ≤ s.block.lengthN := by have := ho.le; have := Block.view_length hv; omega
  cases (exec_eq_answer hi.1 hv ho .scan).symm.trans ht
  exact ⟨rfl, Block.view_discard hv hi.1.fits hk, Block.discard_startN hi.1.fits hk, rfl, rfl⟩

end Scan

/-- Settles O34: the reply of SCAN is the closed form, which bounds the comparisons by the offsets with three bytes. -/
theorem scanIsItsClosedForm : Obligations.ScanIsItsClosedForm := by
  refine ⟨rfl, fun s v hi hv => ?_⟩
  obtain ⟨k, found, ho, hends⟩ := scan_ends hv
  have hf := hi.1.fits
  have hl := Block.view_length hv
  exact ⟨k, found, ho, ho.comparisons_le, by omega, hends⟩

/-- Settles O35: each law is a fact about the scan's outcome on the view bytes; (c) is that SCAN is idempotent. -/
theorem synchronizerLaws : Obligations.SynchronizerLaws := by
  intro s t v hi hv ht
  obtain ⟨k, found, ho⟩ := exists_scanOutcome hv
  obtain ⟨hresult, hview, hstart, hwindow, -⟩ := exec_scan_inv hi hv ho ht
  refine ⟨?garbage, ?notFound, ?again, ?noneLost, ⟨k, hview, hstart⟩, fun a => by rw [hwindow]⟩
  case garbage =>
    rintro G T rfl hG
    obtain ⟨hresultG, hviewG, -, -, hdiscardG⟩ := exec_scan_inv hi hv (scanOutcome_of_garbage hG) ht
    refine ⟨hresultG, ?_, hdiscardG⟩
    rw [hviewG, List.append_assoc, List.drop_left]
  case notFound =>
    intro h
    cases found with
    | true => cases hresult.symm.trans h
    | false =>
      obtain ⟨rfl, hn⟩ := ho.notFound
      exact ⟨hn, hview, fun w j => preamble_after_append_ge hn⟩
  case again => exact fun u hu => (exec_idempotent hi (by simp) ht hu).1
  case noneLost =>
    rintro ⟨j, hj⟩
    rw [hresult, if_pos (ho.found_of_hasPreamble hj)]

end Sys2Proof.Machine

/-! # DECODE: its three ends, and the laws of the parser -/

namespace Sys2Proof.Machine

section Decode
variable {s s' t t' : State} {v v' : List Byte}

/-! ## The frame at the start of the view -/

theorem byte_append_toNat (h l : Byte) : (h ++ l : Sample).toNat = h.toNat * 256 + l.toNat :=
  (bigEndian_pair_append h l).symm.trans (bigEndian_pair h l)

theorem take_three_of_hasPreamble (h : hasPreamble v 0 = true) : v.take 3 = [0xAA#8, 0xAA#8, 0xAA#8] := by
  obtain ⟨h0, h1, h2⟩ := hasPreamble_eq_true.1 h
  simp only [Nat.zero_add] at h1 h2
  rw [List.take_add_one, List.take_add_one, List.take_add_one, h0, h1, h2]
  rfl

/-- The preamble check at the start of the view reads within any three or more bytes of it. -/
theorem hasPreamble_take {n : Nat} (hn : 3 ≤ n) : hasPreamble (v.take n) 0 = hasPreamble v 0 := by
  simp only [hasPreamble, List.getElem?_take_of_lt (show 0 < n by omega),
    List.getElem?_take_of_lt (show 0 + 1 < n by omega), List.getElem?_take_of_lt (show 0 + 2 < n by omega)]

theorem bytePair_take {n j : Nat} (hj : j + 1 < n) : bytePair (v.take n) j = bytePair v j := by
  simp only [bytePair, List.getD_eq_getElem?_getD, List.getElem?_take_of_lt (show j < n by omega),
    List.getElem?_take_of_lt hj]

/-- The five samples are read within the first 13 bytes (R6). -/
theorem frameSamples_take : frameSamples (v.take 13) = frameSamples v := by
  simp only [frameSamples, bytePair_take (show 3 + 1 < 13 by decide), bytePair_take (show 5 + 1 < 13 by decide),
    bytePair_take (show 7 + 1 < 13 by decide), bytePair_take (show 9 + 1 < 13 by decide),
    bytePair_take (show 11 + 1 < 13 by decide)]

/-! ## How DECODE ends -/

/-- DECODE of fewer bytes than a frame (R69). -/
theorem decode_ends_of_short (hv : s.block.view? = some v) (hl : v.length < 13) :
    Ends .decode s { s.block with svalid := false, result := .incomplete } 3#32 [] := by
  have hr := decodeReply_spec hv
  rw [if_pos (Block.view_length hv ▸ hl)] at hr
  exact ends_of_replyOf (i := .decode) hr

/-- DECODE of enough bytes that do not start with the preamble (R69). -/
theorem decode_ends_of_noPreamble (hv : s.block.view? = some v) (hl : 13 ≤ v.length) (hp : hasPreamble v 0 = false) :
    Ends .decode s { s.block with
      svalid := false, result := .misaligned,
      counters := { s.block.counters with misalign := s.block.counters.misalign + 1#32 } } 5#32 [] := by
  have hr := decodeReply_spec hv
  rw [if_neg (Block.view_length hv ▸ hl.not_gt), hp] at hr
  exact ends_of_replyOf (i := .decode) hr

/-- DECODE of a frame (R68, R69). -/
theorem decode_ends_of_frame (hv : s.block.view? = some v) (hl : 13 ≤ v.length) (hp : hasPreamble v 0 = true) :
    Ends .decode s { s.block with
      svalid := true, result := .decoded, samples := frameSamples v,
      counters := { s.block.counters with frame := s.block.counters.frame + 1#32 } } 4#32 [frameSamples v] := by
  have hr := decodeReply_spec hv
  rw [if_neg (Block.view_length hv ▸ hl.not_gt), if_pos hp] at hr
  exact ends_of_replyOf (i := .decode) hr

/-- The result code of DECODE as a function of the view bytes (R69). -/
def decodeResult (v : List Byte) : ResultCode :=
  if v.length < 13 then .incomplete else if hasPreamble v 0 then .decoded else .misaligned

/-- The result depends on the number of view bytes and the first 13 of them (R70 b). -/
theorem decodeResult_congr (hl : v.length = v'.length) (ht : v.take 13 = v'.take 13) :
    decodeResult v = decodeResult v' := by
  have hp : hasPreamble v 0 = hasPreamble v' 0 := by
    rw [← hasPreamble_take (show 3 ≤ 13 by decide), ht, hasPreamble_take (by decide)]
  rw [decodeResult, hl, hp, decodeResult]

theorem hasPreamble_of_decodeResult (h : decodeResult v = .decoded) : hasPreamble v 0 = true := by
  unfold decodeResult at h
  split at h
  · cases h
  · split at h
    · assumption
    · cases h

/-- What a DECODE that completes has done to the result and the samples. -/
theorem exec_decode_inv (hv : s.block.view? = some v) (ht : exec .decode s = .next t) :
    t.block.result = decodeResult v ∧ (t.block.result = .decoded → t.block.samples = frameSamples v) := by
  by_cases hl : v.length < 13
  · cases (decode_ends_of_short hv hl).symm.trans ht
    exact ⟨(if_pos hl).symm, nofun⟩
  · rw [decodeResult, if_neg hl]
    cases hp : hasPreamble v 0 with
    | true =>
      cases (decode_ends_of_frame hv (Nat.not_lt.1 hl) hp).symm.trans ht
      exact ⟨rfl, fun _ => rfl⟩
    | false =>
      cases (decode_ends_of_noPreamble hv (Nat.not_lt.1 hl) hp).symm.trans ht
      exact ⟨rfl, nofun⟩

end Decode

/-- Settles O36: the three replies of DECODE, delivered. -/
theorem decodeChecksThenExtracts : Obligations.DecodeChecksThenExtracts :=
  ⟨rfl, fun _ _ _ hv => ⟨decode_ends_of_short hv, decode_ends_of_noPreamble hv, decode_ends_of_frame hv⟩⟩

/-- Settles O37: a preamble and ten bytes are a frame whatever the ten are; result and samples are functions of the
view's length and its first 13 bytes; and only a view with the preamble is decoded. -/
theorem parserLaws : Obligations.ParserLaws := by
  refine ⟨?anyFrame, ?determinism, ?noMisparse⟩
  case anyFrame =>
    intro s h0 l0 h1 l1 h2 l2 h3 l3 h4 l4 rest _ hv
    have hl : 13 ≤ ([0xAA#8, 0xAA#8, 0xAA#8, h0, l0, h1, l1, h2, l2, h3, l3, h4, l4] ++ rest).length := by
      rw [List.length_append]
      exact Nat.le_add_right 13 _
    exact ⟨_, decode_ends_of_frame hv hl rfl, rfl, byte_append_toNat h0 l0, byte_append_toNat h1 l1,
      byte_append_toNat h2 l2, byte_append_toNat h3 l3, byte_append_toNat h4 l4⟩
  case determinism =>
    intro s s' t t' v v' _ _ hv hv' hlen htake ht ht'
    obtain ⟨hresult, hsamples⟩ := exec_decode_inv hv ht
    obtain ⟨hresult', hsamples'⟩ := exec_decode_inv hv' ht'
    have heq : t.block.result = t'.block.result := by
      rw [hresult, hresult', decodeResult_congr hlen htake]
    refine ⟨heq, fun hd => ?_⟩
    rw [hsamples hd, hsamples' (heq ▸ hd), ← frameSamples_take, htake, frameSamples_take]
  case noMisparse =>
    intro s t v _ hv ht hd
    exact take_three_of_hasPreamble (hasPreamble_of_decodeResult ((exec_decode_inv hv ht).1.symm.trans hd))

end Sys2Proof.Machine

/-! # CYCLE: its three ends -/

namespace Sys2Proof.Machine

section Cycle
variable {b : Block} {s : State} {v : List Byte} {k : Nat} {found : Bool}

/-- The block after the scan of CYCLE, its counter, cursors and flags written out (R64, R71). -/
theorem cycleScanned_eq (hv : b.view? = some v) (k : Nat) (found : Bool) (c : ResultCode) :
    (cycleScanned b k found).setResult c = { b with
      start    := BitVec.ofNat 9 (b.start.toNat + k),
      length   := BitVec.ofNat 9 (v.length - k),
      sync     := found,
      svalid   := false,
      result   := c,
      counters := { b.counters with discard := b.counters.discard + BitVec.ofNat 32 k } } :=
  Block.scanned_eq (b := b.setSvalid false) hv k found c

/-- The bytes kept by a scan that found a preamble hold that preamble. -/
theorem ScanOutcome.three_le_kept (h : ScanOutcome v k true) : 3 ≤ v.length - k := by
  have := hasPreamble_bound h.found.1
  omega

/-- A scan that found nothing keeps the last two bytes, or all of them where there are fewer (R65). -/
theorem ScanOutcome.kept_of_notFound (h : ScanOutcome v k false) : v.length - k = min v.length 2 := by
  have := h.notFound.1
  omega

/-! ## How CYCLE ends -/

/-- CYCLE completes with its closed form on the outcome of its scan. -/
theorem cycle_ends (hi : s.Inv) (hv : s.block.view? = some v) (ho : ScanOutcome v k found) :
    Ends .cycle s (closedReply s.block v k found .cycle).block (closedReply s.block v k found .cycle).response
      (closedReply s.block v k found .cycle).frame.toList :=
  ends_of_replyOf (replyOf_eq_closedReply hi.1 hv ho .cycle)

/-- CYCLE of a view without a preamble (R72). -/
theorem cycle_ends_of_notFound (hi : s.Inv) (hv : s.block.view? = some v) (ho : ScanOutcome v k false) :
    Ends .cycle s { s.block with
      start    := BitVec.ofNat 9 (s.block.start.toNat + k),
      length   := BitVec.ofNat 9 (v.length - k),
      sync     := false,
      svalid   := false,
      result   := .notFound,
      counters := { s.block.counters with discard := s.block.counters.discard + BitVec.ofNat 32 k } } 1#32 [] := by
  rw [← cycleScanned_eq hv]
  exact cycle_ends hi hv ho

/-- CYCLE of a view with fewer bytes from the preamble than a frame (R72). -/
theorem cycle_ends_of_short (hi : s.Inv) (hv : s.block.view? = some v) (ho : ScanOutcome v k true)
    (hl : v.length - k < 13) :
    Ends .cycle s { s.block with
      start    := BitVec.ofNat 9 (s.block.start.toNat + k),
      length   := BitVec.ofNat 9 (v.length - k),
      sync     := true,
      svalid   := false,
      result   := .incomplete,
      counters := { s.block.counters with discard := s.block.counters.discard + BitVec.ofNat 32 k } } 3#32 [] := by
  have hends := cycle_ends hi hv ho
  simp only [closedReply, if_true, if_pos (Block.view_length hv ▸ hl)] at hends
  rw [← cycleScanned_eq hv]
  exact hends

/-- CYCLE of a view with a frame's bytes from the preamble (R72). -/
theorem cycle_ends_of_frame (hi : s.Inv) (hv : s.block.view? = some v) (ho : ScanOutcome v k true)
    (hl : 13 ≤ v.length - k) :
    Ends .cycle s { s.block with
      start    := 0#9,
      length   := 0#9,
      sync     := false,
      svalid   := true,
      result   := .decoded,
      samples  := frameSamples (v.drop k),
      counters := { s.block.counters with
        discard := s.block.counters.discard + BitVec.ofNat 32 k,
        frame   := s.block.counters.frame + 1#32 } } 4#32 [frameSamples (v.drop k)] := by
  have hends := cycle_ends hi hv ho
  simp only [closedReply, if_true, if_neg (Block.view_length hv ▸ hl.not_gt)] at hends
  exact hends

end Cycle

/-- Settles O38: the three replies of CYCLE, delivered, by the outcome of its scan. -/
theorem cycleSynchronizesThenDecodes : Obligations.CycleSynchronizesThenDecodes := by
  refine ⟨rfl, fun s v hi hv => ?_⟩
  obtain ⟨k, found, ho⟩ := exists_scanOutcome hv
  refine ⟨k, found, ho, ?notFound, ?incomplete, ?decoded⟩
  case notFound =>
    rintro rfl
    exact ⟨cycle_ends_of_notFound hi hv ho, ho.kept_of_notFound⟩
  case incomplete =>
    rintro rfl hl
    exact ⟨cycle_ends_of_short hi hv ho hl, ho.three_le_kept⟩
  case decoded =>
    rintro rfl hl
    exact cycle_ends_of_frame hi hv ho hl

end Sys2Proof.Machine

/-! # RDVIEW: its one end, and the two sides of LENGTH -/

namespace Sys2Proof.Machine

section Rdview
variable {b : Block} {s : State} {v : List Byte}

/-- RDVIEW completes on the block it reads, with the view byte, or 0 where there is none, zero-extended (R75). -/
theorem rdview_ends (hv : s.block.view? = some v) (i : Byte) :
    Ends (.rdview i) s s.block ((v.getD i.toNat 0#8).setWidth 32) [] :=
  ends_of_replyOf (i := .rdview i) (rdviewReply_spec hv i)

/-- Below LENGTH the view has the byte that RDVIEW answers. -/
theorem Block.view_getElem?_eq_getD (hv : b.view? = some v) {n : Nat} (hn : n < b.lengthN) :
    v[n]? = some (v.getD n 0#8) := by
  have hl : n < v.length := (Block.view_length hv).symm ▸ hn
  rw [List.getD_eq_getElem _ _ hl, List.getElem?_eq_getElem hl]

/-- From LENGTH on the view has no byte. -/
theorem Block.view_getD_eq_zero (hv : b.view? = some v) {n : Nat} (hn : b.lengthN ≤ n) : v.getD n 0#8 = 0#8 :=
  List.getD_eq_default _ _ ((Block.view_length hv).symm ▸ hn)

/-- A byte zero-extended to a word is the byte in its low eight bits and at most 255. -/
theorem zeroExtended_byte (x : Byte) : (x.setWidth 32).setWidth 8 = x ∧ (x.setWidth 32).toNat < 256 := by
  refine ⟨BitVec.setWidth_setWidth_of_le x (by decide), ?_⟩
  rw [BitVec.toNat_setWidth_of_le (by decide)]
  exact x.isLt

end Rdview

/-- Settles O45: below LENGTH the answer is the view byte, which the window holds at START + i and the cursors keep
inside it; from LENGTH on there is no view byte and the answer is 0. -/
theorem rdviewAnswersTheViewByte : Obligations.RdviewAnswersTheViewByte := by
  refine fun s v i hi hv => ⟨packFields_eq_append 8#4 i, _, rdview_ends hv i, fun hlt => ?inside, fun hge => ?outside⟩
  case inside =>
    obtain ⟨hbyte, hsmall⟩ := zeroExtended_byte (v.getD i.toNat 0#8)
    have hfits : s.block.start.toNat + s.block.length.toNat ≤ 256 := hi.1.fits
    exact ⟨hbyte.symm ▸ Block.view_getElem?_eq_getD hv hlt, hsmall, Block.view_read hv hlt, by omega⟩
  case outside =>
    rw [Block.view_getD_eq_zero hv hge]
    rfl

end Sys2Proof.Machine

/-! # The order of the checks: the one result code of each command -/

namespace Sys2Proof.Machine

/-- The one result code of each legal command, by the order of the checks (R83); the two reads write none. -/
theorem closedReply_result {b : Block} {v : List Byte} {k : Nat} {found : Bool} (hl : v.length = b.lengthN)
    (i : Instr) :
    (closedReply b v k found i).block.result =
      match i with
      | .nop | .clear | .compact => .ok
      | .write _ => if v.length = 256 then .overflow else .ok
      | .scan    => if found then .found else .notFound
      | .decode  => if v.length < 13 then .incomplete else if hasPreamble v 0 then .decoded else .misaligned
      | .cycle   => if found then (if v.length - k < 13 then .incomplete else .decoded) else .notFound
      | .rdreg _ | .rdview _ => b.result := by
  cases i with
  | write x =>
    simp only [closedReply, hl]
    split <;> rfl
  | decode =>
    simp only [closedReply, hl]
    split
    · rfl
    · split <;> rfl
  | cycle =>
    simp only [closedReply, hl]
    split
    · split <;> rfl
    · rfl
  | nop | clear | scan | compact | rdreg n | rdview n => rfl

/-- Settles O22: legality decides first, an illegal word raising ILLEGAL before any effect; a legal word is its
command's, and its closed reply carries the code. -/
theorem firstCheckThatHoldsDecides : Obligations.FirstCheckThatHoldsDecides := by
  intro s t w es v k found hi hp hv ho h
  have hb : (s.setPending es).block.Inv := hi.1
  rw [step_command hp] at h
  cases hd : decode w with
  | error r =>
    rw [runWord_error hb hd] at h
    cases h
    rfl
  | ok i =>
    obtain rfl := eq_encode_of_decode hd
    rw [runWord_encode hb, exec_eq_answer hb hv ho] at h
    cases h
    have hr := closedReply_result (k := k) (found := found) (Block.view_length hv) i
    cases i <;> exact hr

end Sys2Proof.Machine

/-! # The decoder and the step, and the invariant along steps -/

namespace Sys2Proof.Machine

/-- Settles O1: the two directions are `eq_encode_of_decode` and `decode_encode`. -/
theorem decodeAndEncodeAgreeBothWays : Obligations.DecodeAndEncodeAgreeBothWays :=
  fun _ i => ⟨eq_encode_of_decode, fun h => h ▸ decode_encode i⟩

/-- Settles O13, by `State.Inv.of_step`: every arm of the step delivers a reply, raises ILLEGAL or resets, and each of
the three keeps the invariant. -/
theorem everyStepKeepsTheInvariant : Obligations.EveryStepKeepsTheInvariant :=
  fun _ _ hi h => hi.of_step h

/-- Settles O15: in a state that meets the invariant every command replies, so every arm of the step goes on. -/
theorem noStepStopsInAnInvariantState : Obligations.NoStepStopsInAnInvariantState :=
  fun _ hi => hi.step.imp fun _ ht => ht.1

/-- Settles O12: the reset block meets the invariant, and its SVALID is 0. -/
theorem resetMeetsTheInvariant : Obligations.ResetMeetsTheInvariant := bootedWith_inv

/-- Settles O4: nine words of commands, read back by `decode_encode`, and three words that no command has. -/
theorem specWordsDecode : Obligations.SpecWordsDecode :=
  ⟨decode_encode .nop, decode_encode .clear, decode_encode (.write 0xAA#8), decode_encode .scan, decode_encode .decode,
    decode_encode .cycle, decode_encode .compact, decode_encode (.rdreg 0x12#8), decode_encode (.rdview 3#8),
    rfl, rfl, rfl⟩

section Step
variable {s : State} {w : CmdWord} {i : Instr}

/-- A legal word in a state with a meaning runs its command (R53, R55). -/
theorem runWord_of_decode (hs : s.block.wellFormed = true) (hd : decode w = .ok i) : runWord w s = exec i s := by
  rw [runWord, if_pos hs, hd]

/-- No word runs in a state without a meaning (A14). -/
theorem runWord_of_illFormed (hs : s.block.wellFormed = false) : runWord w s = .refused .illFormedState := by
  rw [runWord, hs]
  rfl

theorem decode_of_decodeTableWord {n m : Nat} (h : decodeTableWord n m = some i) : decode (tableWord n m) = .ok i := by
  unfold decodeTableWord at h
  split at h
  · next j hd => rw [hd, Option.some.inj h]
  · cases h

theorem step_withFetchWord (s : State) (n m : Nat) : step (s.withFetchWord n m) = runWord (tableWord n m) s := rfl

/-- The two ways a state has no meaning (R17, R19). -/
theorem Block.wellFormed_eq_false {b : Block}
    (h : 256 < b.startN + b.lengthN ∨ (b.sync = true ∧ (b.lengthN < 3 ∨ b.preambleAt 0 ≠ some true))) :
    b.wellFormed = false := by
  rw [← Bool.not_eq_true, Block.wellFormed, Bool.and_eq_true, Block.cursorsFit_iff, Block.syncHolds_iff]
  rintro ⟨hfit, hsync⟩
  rcases h with hover | ⟨hs, hshort | hpre⟩
  · omega
  · have := (hsync hs).1
    omega
  · exact hpre (hsync hs).2

end Step

/-- Settles O6: the word's arm of the step, with its decoding given. -/
theorem stepRunsTheDecodedCommand : Obligations.StepRunsTheDecodedCommand :=
  fun s _ es _ hs hp hd => (step_command hp).trans (runWord_of_decode (s := s.setPending es) hs hd)

/-- Settles O7: a word below 2^16 is its own table word, and the decoder accepts no word but the command's. -/
theorem placedWordRunsNext : Obligations.PlacedWordRunsNext := by
  intro s w i hs hw h
  have hd := decode_of_decodeTableWord h
  refine ⟨?_, (step_withFetchWord s 16 w).trans (runWord_of_decode hs hd)⟩
  rw [← eq_encode_of_decode hd]
  exact congrArg (BitVec.ofNat 16) (Nat.mod_eq_of_lt hw)

/-- Settles O8: the idle arm of the step. -/
theorem silentHostChangesNothing : Obligations.SilentHostChangesNothing := fun _ => step_idle

/-- Settles O9: each of the two violations makes the check before the decoder fail. -/
theorem illFormedStateIsRefused : Obligations.IllFormedStateIsRefused :=
  fun s _ es hp h => (step_command hp).trans
    (runWord_of_illFormed (s := s.setPending es) (Block.wellFormed_eq_false (b := s.block) h))

/-- Settles O11: the reset arm of the step replaces the block and touches no port. -/
theorem resetRetractsAndEmitsNothing : Obligations.ResetRetractsAndEmitsNothing :=
  fun _ _ hp => ⟨_, step_reset hp, rfl, rfl, rfl, rfl, fun _ => rfl⟩

/-! ## Scripts -/

/-- Every word of a line other than `.word` is a command's word (R57, R58). -/
theorem exists_encode_of_mem_scriptWords {l : ScriptLine} (hl : ∀ w, l ≠ .word w) {w : CmdWord}
    (hw : w ∈ scriptWords l) : ∃ i, w = encode i := by
  have hfeed : ∀ bs, w ∈ feedWords bs → ∃ i, w = encode i := fun bs h => by
    obtain ⟨b, -, rfl⟩ := List.mem_map.1 h
    exact ⟨.write b, rfl⟩
  cases l with
  | blank => cases hw
  | command i => exact ⟨i, List.mem_singleton.1 hw⟩
  | word w' => exact absurd rfl (hl w')
  | feed bs => exact hfeed bs hw
  | feedN n b => exact ⟨.write b, List.eq_of_mem_replicate hw⟩
  | poll bs => exact (List.mem_append.1 hw).elim (hfeed bs) fun h => ⟨.cycle, List.mem_singleton.1 h⟩
  | rdStatus => exact ⟨_, List.mem_singleton.1 hw⟩
  | rdSamples =>
    simp only [scriptWords, List.mem_cons, List.not_mem_nil, or_false] at hw
    rcases hw with h | h | h | h | h <;> exact ⟨_, h⟩

/-- Settles O5: the expansions are the encoder's words written out, and a command's word is legal. -/
theorem scriptLinesExpandToLegalWords : Obligations.ScriptLinesExpandToLegalWords := by
  refine ⟨fun bs n b => ?_, fun l hl w hw => ?_⟩
  · have hwrite : (fun x => encode (.write x)) = fun x : Byte => x ++ 0x02#8 := funext (packFields_eq_append 2#4)
    have hfeed : feedWords bs = bs.map (fun x => x ++ 0x02#8) := congrArg (bs.map ·) hwrite
    exact ⟨hfeed, congrArg (List.replicate n) (congrFun hwrite b), congrArg (· ++ [0x0005#16]) hfeed, rfl, rfl⟩
  · obtain ⟨i, rfl⟩ := exists_encode_of_mem_scriptWords hl hw
    exact isLegal_encode i

end Sys2Proof.Machine

/-! # The view after a command, and two blocks with the same view -/

namespace Sys2Proof.Machine

/-- The view that a command leaves, from the view `v` and the outcome of its scan (R59 to R62, R64, R69, R71). -/
def viewAfter (v : List Byte) (k : Nat) (found : Bool) : Instr → List Byte
  | .clear   => []
  | .write x => if v.length = 256 then v else v ++ [x]
  | .scan    => v.drop k
  | .cycle   => if found = true ∧ 13 ≤ v.length - k then [] else v.drop k
  | .nop | .decode | .compact | .rdreg _ | .rdview _ => v

section ViewAfter
variable {b : Block} {s t : State} {v : List Byte} {k : Nat} {found : Bool}

theorem closedReply_view (hi : b.Inv) (hv : b.view? = some v) (ho : ScanOutcome v k found) (i : Instr) :
    (closedReply b v k found i).block.view? = some (viewAfter v k found i) := by
  have hl := Block.view_length hv
  have hk : k ≤ b.lengthN := Nat.le_trans ho.le (by omega)
  have hscanned : (cycleScanned b k found).view? = some (v.drop k) :=
    Block.view_discard (b := b.setSvalid false) hv hi.fits hk
  cases i with
  | write x =>
    simp only [closedReply, viewAfter, hl]
    split
    · exact hv
    · next hne =>
      obtain ⟨-, hrv, hrt⟩ := hi.roomMade hv hne
      exact Block.view_appended hrv hrt x
  | scan => exact Block.view_discard hv hi.fits hk
  | decode =>
    simp only [closedReply, viewAfter]
    split
    · exact hv
    · split <;> exact hv
  | cycle =>
    cases found with
    | false =>
      simp only [closedReply, viewAfter, Bool.false_eq_true, false_and, if_false]
      exact hscanned
    | true =>
      simp only [closedReply, viewAfter, hl, if_true, true_and]
      split
      · next hshort =>
        rw [if_neg (by omega)]
        exact hscanned
      · next hlong =>
        rw [if_pos (by omega)]
        exact Block.clearWindow_view _
  | compact => exact Block.compacted_view hv
  | clear => exact Block.clearWindow_view b
  | nop | rdreg n | rdview n => exact hv

/-- The view that a command which completes has left. -/
theorem exec_view (hi : s.Inv) (hv : s.block.view? = some v) (ho : ScanOutcome v k found) {i : Instr}
    (h : exec i s = .next t) : t.block.view? = some (viewAfter v k found i) := by
  cases (exec_eq_answer hi.1 hv ho i).symm.trans h
  exact closedReply_view hi.1 hv ho i

end ViewAfter

/-! ## Replies of two blocks that differ in where the view lies -/

section SameView
variable {a b : Block} {v : List Byte} {k : Nat} {found : Bool} {i : Instr}

theorem SameView.lengthN_eq (h : SameView a b) (hv : a.view? = some v) : a.lengthN = b.lengthN :=
  (Block.view_length hv).symm.trans (Block.view_length (h.1 ▸ hv))

/-- Every register but START and FREE reads alike (R28). -/
theorem SameView.regValue_eq (h : SameView a b) (hl : a.lengthN = b.lengthN) {r : Reg} (hs : r ≠ .start)
    (hf : r ≠ .free) : a.regValue r = b.regValue r := by
  obtain ⟨-, hsync, hsvalid, hresult, hsamples, hcounters⟩ := h
  cases r with
  | start => exact absurd rfl hs
  | free => exact absurd rfl hf
  | status =>
    have hstate : a.syncState = b.syncState := by rw [Block.syncState, hsync, hl, Block.syncState]
    simp only [Block.regValue, Block.status, hsync, hsvalid, hresult, hstate]
  | length => exact congrArg (BitVec.setWidth 32) (BitVec.eq_of_toNat_eq hl)
  | room => simp only [Block.regValue, Block.room, hl]
  | param => rfl
  | frameCount | discardCount | misalignCount | overflowCount | illegalCount =>
    simp only [Block.regValue, hcounters]
  | sample0 | sample1 | sample2 | sample3 | sample4 => simp only [Block.regValue, hsamples]

theorem SameView.readReg_eq (h : SameView a b) (hl : a.lengthN = b.lengthN) {n : Byte} (hs : n ≠ 0x01#8)
    (hf : n ≠ 0x03#8) : a.readReg n = b.readReg n := by
  unfold Block.readReg
  cases hr : regOfIndex n with
  | none => rfl
  | some r =>
    obtain rfl := eq_regIndex_of_regOfIndex hr
    exact h.regValue_eq hl (fun hr => hs (congrArg regIndex hr)) (fun hr => hf (congrArg regIndex hr))

/-- Every command but RDREG START and RDREG FREE responds alike (R51, R74, R75). -/
theorem SameView.response_eq (h : SameView a b) (hv : a.view? = some v) (hs : i ≠ .rdreg 0x01#8)
    (hf : i ≠ .rdreg 0x03#8) : (closedReply a v k found i).response = (closedReply b v k found i).response := by
  have hl := h.lengthN_eq hv
  cases hr : isReadInstr i with
  | false =>
    rw [(closedReply_response hr).1, (closedReply_response hr).1, closedReply_result (Block.view_length hv),
      closedReply_result ((Block.view_length hv).trans hl)]
    cases i with
    | rdreg n | rdview n => cases hr
    | nop | clear | write x | scan | decode | cycle | compact => rfl
  | true =>
    cases i with
    | rdreg n => exact h.readReg_eq hl (fun hn => hs (congrArg Instr.rdreg hn)) (fun hn => hf (congrArg Instr.rdreg hn))
    | rdview n => rfl
    | nop | clear | write x | scan | decode | cycle | compact => cases hr

/-- Every command delivers the same frame or withholds it in both blocks. -/
theorem SameView.delivery_eq (h : SameView a b) (hv : a.view? = some v) (i : Instr) :
    (closedReply a v k found i).frame = (closedReply b v k found i).frame ∧
      (closedReply a v k found i).block.samples = (closedReply b v k found i).block.samples ∧
      (closedReply a v k found i).block.svalid = (closedReply b v k found i).block.svalid := by
  have hl := h.lengthN_eq hv
  obtain ⟨-, -, hsvalid, -, hsamples, -⟩ := h
  by_cases hd : i = .decode
  · subst hd
    simp only [closedReply, hl]
    split
    · exact ⟨rfl, hsamples, rfl⟩
    · split
      · exact ⟨rfl, rfl, rfl⟩
      · exact ⟨rfl, hsamples, rfl⟩
  · by_cases hc : i = .cycle
    · subst hc
      simp only [closedReply, hl]
      split
      · split
        · exact ⟨rfl, hsamples, rfl⟩
        · exact ⟨rfl, rfl, rfl⟩
      · exact ⟨rfl, hsamples, rfl⟩
    · have ha := closedReply_keepsSamples (b := a) (v := v) (k := k) (found := found) hd hc
      have hb := closedReply_keepsSamples (b := b) (v := v) (k := k) (found := found) hd hc
      exact ⟨ha.frame.trans hb.frame.symm, by rw [ha.samples, hb.samples, hsamples],
        by rw [ha.svalid, hb.svalid, hsvalid]⟩

/-- Every command leaves two blocks with the same view with the same view again (R63). -/
theorem SameView.reply_block (h : SameView a b) (ha : a.Inv) (hb : b.Inv) (hv : a.view? = some v)
    (ho : ScanOutcome v k found) (i : Instr) :
    SameView (closedReply a v k found i).block (closedReply b v k found i).block := by
  have hv' : b.view? = some v := h.1 ▸ hv
  obtain ⟨-, hsamples', hsvalid'⟩ := h.delivery_eq (k := k) (found := found) hv i
  obtain ⟨-, hsync, -, hresult, -, hcounters⟩ := h
  have hres : (closedReply a v k found i).block.result = (closedReply b v k found i).block.result := by
    rw [closedReply_result (Block.view_length hv), closedReply_result (Block.view_length hv'), hresult]
  refine ⟨?_, ?_, hsvalid', hres, hsamples', ?_⟩
  · rw [closedReply_view ha hv ho, closedReply_view hb hv' ho]
  · rw [closedReply_sync (Block.view_length hv), closedReply_sync (Block.view_length hv'), hsync]
  · rw [closedReply_counters, closedReply_counters, hres, hcounters]

end SameView

/-! ## Two machines with the same view -/

/-- Two machines that meet the invariant and cannot be told apart at the ports: the same view and registers but START,
the same events to come, the same words and frames delivered. -/
structure Indistinguishable (s s' : State) : Prop where
  inv       : s.Inv
  inv'      : s'.Inv
  block     : SameView s.block s'.block
  pending   : s.pending = s'.pending
  responses : s.responses = s'.responses
  frames    : s.frames = s'.frames

section Indistinguishable
variable {s s' : State} {es : List HostEvent}

theorem Indistinguishable.setPending (h : Indistinguishable s s') (es : List HostEvent) :
    Indistinguishable (s.setPending es) (s'.setPending es) :=
  ⟨h.inv, h.inv', h.block, rfl, h.responses, h.frames⟩

theorem Indistinguishable.takeReset (h : Indistinguishable s s') : Indistinguishable s.takeReset s'.takeReset :=
  ⟨.takeReset s, .takeReset s', ⟨rfl, rfl, rfl, rfl, rfl, rfl⟩, h.pending, h.responses, h.frames⟩

theorem Indistinguishable.raiseIllegal (h : Indistinguishable s s') :
    Indistinguishable s.raiseIllegal s'.raiseIllegal := by
  obtain ⟨hv, hsync, hsvalid, -, hsamples, hcounters⟩ := h.block
  have hcount : s.block.counters.countResult .illegal = s'.block.counters.countResult .illegal := by rw [hcounters]
  exact ⟨h.inv.raiseIllegal, h.inv'.raiseIllegal, ⟨hv, hsync, hsvalid, rfl, hsamples, hcount⟩, h.pending,
    congrArg (· ++ _) h.responses, congrArg (· ++ _) h.frames⟩

/-- The same command, if not one of the two that read START, cannot tell the machines apart. -/
theorem Indistinguishable.exec (h : Indistinguishable s s') {i : Instr} (hs : i ≠ .rdreg 0x01#8)
    (hf : i ≠ .rdreg 0x03#8) :
    ∃ t t', exec i s = .next t ∧ exec i s' = .next t' ∧ t.pending = s.pending ∧ Indistinguishable t t' := by
  obtain ⟨v, hv⟩ := h.inv.1.exists_view
  obtain ⟨k, found, ho⟩ := exists_scanOutcome hv
  have hv' : s'.block.view? = some v := h.block.1 ▸ hv
  refine ⟨_, _, exec_eq_answer h.inv.1 hv ho i, exec_eq_answer h.inv'.1 hv' ho i, rfl,
    h.inv.answer hv ho i, h.inv'.answer hv' ho i, h.block.reply_block h.inv.1 h.inv'.1 hv ho i, h.pending, ?_, ?_⟩
  · rw [State.answer_responses, State.answer_responses, h.responses, h.block.response_eq hv hs hf]
  · rw [State.answer_frames, State.answer_frames, h.frames, (h.block.delivery_eq hv i).1]

/-- One step with an event other than the words 0x0107 and 0x0307 next: both machines take the event and stay
indistinguishable. -/
theorem Indistinguishable.step (h : Indistinguishable s s') {e : HostEvent} (hp : s.pending = e :: es)
    (hs : e ≠ .command 0x0107#16) (hf : e ≠ .command 0x0307#16) :
    ∃ t t', step s = .next t ∧ step s' = .next t' ∧ t.pending = es ∧ Indistinguishable t t' := by
  have hp' : s'.pending = e :: es := h.pending ▸ hp
  have h' := h.setPending es
  cases e with
  | reset => exact ⟨_, _, step_reset hp, step_reset hp', rfl, h'.takeReset⟩
  | command w =>
    rw [step_command hp, step_command hp']
    cases hd : decode w with
    | error r => exact ⟨_, _, runWord_error h'.inv.1 hd, runWord_error h'.inv'.1 hd, rfl, h'.raiseIllegal⟩
    | ok i =>
      obtain rfl := eq_encode_of_decode hd
      rw [runWord_encode h'.inv.1, runWord_encode h'.inv'.1]
      exact h'.exec (fun hi => hs (congrArg (HostEvent.command ∘ encode) hi))
        (fun hi => hf (congrArg (HostEvent.command ∘ encode) hi))

/-- Runs over such events. -/
theorem Indistinguishable.run (h : Indistinguishable s s') (hp : s.pending = es)
    (hes : ∀ e ∈ es, e ≠ .command 0x0107#16 ∧ e ≠ .command 0x0307#16) :
    ∃ t t', Host.Core.run core es.length s = .next t ∧ Host.Core.run core es.length s' = .next t' ∧
      Indistinguishable t t' := by
  induction es generalizing s s' with
  | nil => exact ⟨s, s', rfl, rfl, h⟩
  | cons e es ih =>
    obtain ⟨hs, hf⟩ := hes e List.mem_cons_self
    obtain ⟨u, u', hu, hu', hpu, hsame⟩ := h.step hp hs hf
    obtain ⟨t, t', ht, ht', htt⟩ := ih hsame hpu fun e he => hes e (List.mem_cons_of_mem _ he)
    exact ⟨t, t', (run_succ hu _).trans ht, (run_succ hu' _).trans ht', htt⟩

end Indistinguishable

/-- Settles O32, by a simulation: indistinguishable machines stay so at every step, the reply of a command being a
function of the view and of the registers that agree. -/
theorem positionOfTheViewIsUnobservable : Obligations.PositionOfTheViewIsUnobservable := by
  intro s s' es hi hi' hsame hresponses hframes hes
  have h : Indistinguishable (s.setPending es) (s'.setPending es) := ⟨hi, hi', hsame, rfl, hresponses, hframes⟩
  obtain ⟨t, t', ht, ht', htt⟩ := h.run rfl hes
  exact ⟨t, t', ht, ht', htt.responses, htt.frames, htt.block⟩

end Sys2Proof.Machine

/-! # START, the bytes of the window, and the laws of the window commands -/

namespace Sys2Proof.Machine

/-! ## START -/

section Start
variable {b : Block} {s t : State} {v : List Byte} {k : Nat} {found : Bool}

/-- A discard moves START by no more than the view is long, less the two bytes that it keeps. -/
theorem Block.discard_start_le (hi : b.Inv) (hv : b.view? = some v) (ho : ScanOutcome v k found)
    (h : b.startN ≤ 254) : (b.discard k).startN ≤ 254 := by
  have hf := hi.fits
  have hl := Block.view_length hv
  have hk := ho.le
  rw [Block.discard_startN hf (by omega)]
  omega

/-- START stays at most 254: a command keeps it, sets it to 0 or discards (R15). -/
theorem closedReply_start_le (hi : b.Inv) (hv : b.view? = some v) (ho : ScanOutcome v k found)
    (h : b.startN ≤ 254) (i : Instr) : (closedReply b v k found i).block.startN ≤ 254 := by
  have hscanned : (cycleScanned b k found).startN ≤ 254 :=
    Block.discard_start_le (b := b.setSvalid false) hi hv ho h
  cases i with
  | write x =>
    simp only [closedReply]
    split
    · exact h
    · show (b.roomMade v).startN ≤ 254
      unfold Block.roomMade
      split
      · exact Nat.zero_le 254
      · exact h
  | scan => exact Block.discard_start_le hi hv ho h
  | decode =>
    simp only [closedReply]
    split
    · exact h
    · split <;> exact h
  | cycle =>
    cases found with
    | false => exact hscanned
    | true =>
      simp only [closedReply, if_true]
      split
      · exact hscanned
      · exact Nat.zero_le 254
  | clear | compact => exact Nat.zero_le 254
  | nop | rdreg n | rdview n => exact h

end Start

/-- Settles O16: by the event of the step, a command's word through the START of its closed reply. -/
theorem startStaysInZeroTo254 : Obligations.StartStaysInZeroTo254 := by
  intro s t hi hs h
  match hp : s.pending with
  | [] =>
    cases (step_idle hp).symm.trans h
    exact hs
  | .reset :: es =>
    cases (step_reset hp).symm.trans h
    exact Nat.zero_le 254
  | .command w :: es =>
    obtain ⟨v, hv⟩ := hi.1.exists_view
    obtain ⟨k, found, ho⟩ := exists_scanOutcome hv
    rcases step_command_cases hi hp hv ho with ⟨i, -, h'⟩ | ⟨-, h'⟩ <;> cases h'.symm.trans h
    · exact closedReply_start_le hi.1 hv ho hs i
    · exact hs

/-! ## The commands that store nothing -/

section Window
variable {b c : Block} {r : Reply} {e : Samples} {found : Bool}

theorem Block.scanCore_window (h : b.scanCore = .ok (c, found)) : c.window = b.window := by
  unfold Block.scanCore at h
  split at h <;> cases h
  rfl

theorem Block.extract_window (h : b.extract = .ok (c, e)) : c.window = b.window := by
  unfold Block.extract at h
  split at h <;> cases h
  rfl

theorem scanReply_window (h : scanReply b = .ok r) : r.block.window = b.window := by
  unfold scanReply at h
  split at h <;> cases h
  · next c hs => exact Block.scanCore_window (c := c) hs
  · next c hs => exact Block.scanCore_window (c := c) hs

theorem decodeFrame_window (h : decodeFrame b = .ok r) : r.block.window = b.window := by
  unfold decodeFrame at h
  split at h <;> cases h
  next c e he => exact Block.extract_window (c := c) he

theorem decodeReply_window (h : decodeReply b = .ok r) : r.block.window = b.window := by
  simp only [decodeReply] at h
  split at h
  · cases h; rfl
  · split at h
    · cases h
    · cases h; rfl
    · exact decodeFrame_window (b := b.setSvalid false) h

theorem cycleFrame_window (h : cycleFrame b = .ok r) : r.block.window = b.window := by
  unfold cycleFrame at h
  split at h <;> cases h
  next c e he => exact Block.extract_window (c := c) he

theorem cycleSynced_window (h : cycleSynced b = .ok r) : r.block.window = b.window := by
  unfold cycleSynced at h
  split at h
  · cases h; rfl
  · split at h
    · cases h
    · cases h; rfl
    · exact cycleFrame_window h

theorem cycleReply_window (h : cycleReply b = .ok r) : r.block.window = b.window := by
  unfold cycleReply at h
  split at h
  · cases h
  · next c hs =>
    cases h
    exact Block.scanCore_window (b := b.setSvalid false) (c := c) hs
  · next c hs =>
    have hscan : c.window = b.window := Block.scanCore_window (b := b.setSvalid false) hs
    exact (cycleSynced_window h).trans hscan

theorem rdviewReply_window {i : Byte} (h : rdviewReply i b = .ok r) : r.block.window = b.window := by
  unfold rdviewReply at h
  split at h <;> cases h
  rfl

end Window

/-- Settles O24: none of these replies writes the window, whatever the state. -/
theorem nonStoringCommandsKeepEveryByte : Obligations.NonStoringCommandsKeepEveryByte := by
  intro i s t hmem h a
  obtain ⟨r, hr, rfl⟩ := exec_eq_next.1 h
  suffices hw : r.block.window = s.block.window from congrArg (Memory.read · a) hw
  rcases hmem with hmem | ⟨n, rfl | rfl⟩
  · simp only [List.mem_cons, List.not_mem_nil, or_false] at hmem
    rcases hmem with rfl | rfl | rfl | rfl | rfl
    · cases hr; rfl
    · cases hr; rfl
    · exact scanReply_window hr
    · exact decodeReply_window hr
    · exact cycleReply_window hr
  · cases hr; rfl
  · exact rdviewReply_window hr

/-! ## The commands that store -/

/-- Settles O25: COMPACT and the three ends of WRITE, their windows read byte by byte. -/
theorem storingCommandsKeepEveryOtherByte : Obligations.StoringCommandsKeepEveryOtherByte := by
  intro s t hi
  obtain ⟨v, hv⟩ := hi.1.exists_view
  refine ⟨fun h => ?compact, fun x h => ⟨fun ht => ?append, fun ht h0 c hc => ?move, fun ht h0 a => ?overflow⟩⟩
  case compact =>
    cases (compact_ends hv).symm.trans h
    exact ⟨fun a ha => (Block.compacted_read hv a).trans (if_pos ha),
      fun a ha => (Block.compacted_read hv a).trans (if_neg ha)⟩
  case append =>
    cases (write_ends_of_tail_lt ht x).symm.trans h
    exact ⟨(s.block.appended_read x _).trans (if_pos rfl), fun a ha => (s.block.appended_read x a).trans (if_neg ha)⟩
  case move =>
    obtain rfl : s.block.compacted v = c := Except.ok.inj ((Block.compactCore_spec hv).symm.trans hc)
    cases (write_ends_of_tail_eq hv ht (Nat.pos_of_ne_zero h0) x).symm.trans h
    have hread := (s.block.compacted v).appended_read x
    refine ⟨(hread _).trans (if_pos rfl), fun a ha => ?_, fun a ha hne => ?_⟩
    · have hne : a ≠ (s.block.compacted v).tail := by rw [Block.compacted_tail]; omega
      exact ((hread a).trans (if_neg hne)).trans ((Block.compacted_read hv a).trans (if_pos ha))
    · exact ((hread a).trans (if_neg hne)).trans ((Block.compacted_read hv a).trans (if_neg ha))
  case overflow =>
    have hl : s.block.lengthN = 256 := by
      rw [Block.tail, h0, Nat.zero_add] at ht
      exact ht
    cases (write_ends_of_full hi hl x).symm.trans h
    rfl

/-! ## The laws of R63 -/

/-- Settles O31: (a) to (e) are the ends of COMPACT, WRITE and CLEAR; the last law holds of every command that does not
parse, with R17 and R19 from the invariant. -/
theorem windowCommandLaws : Obligations.WindowCommandLaws := by
  intro s v hi hv
  refine ⟨⟨_, compact_ends hv, Block.compacted_view hv, rfl⟩, fun x hl => ?accepted, fun x hl => ?overflow,
    ⟨_, clearEmptiesTheWindow.2 s, s.block.clearWindow_view⟩, fun i t hmem h => ?keeps⟩
  case accepted =>
    obtain ⟨t, ht, -, htv, -⟩ := exec_write_accepted hi hv hl x
    exact ⟨t, ht, htv⟩
  case overflow =>
    exact ⟨_, write_ends_of_full hi ((Block.view_length hv).symm.trans hl) x, rfl, hv, rfl, rfl⟩
  case keeps =>
    obtain ⟨hd, hc⟩ : i ≠ .decode ∧ i ≠ .cycle := by
      rcases hmem with hmem | ⟨x, rfl⟩
      · exact ⟨by rintro rfl; simp at hmem, by rintro rfl; simp at hmem⟩
      · exact ⟨nofun, nofun⟩
    obtain ⟨k, found, ho⟩ := exists_scanOutcome hv
    have ht := hi.exec h
    cases (exec_eq_answer hi.1 hv ho i).symm.trans h
    have hk := closedReply_keepsSamples (b := s.block) (v := v) (k := k) (found := found) hd hc
    exact ⟨hk.samples, hk.svalid, by simp [hk.frame], ht.cursors_le, ht.1.2.2.2⟩

end Sys2Proof.Machine

/-! # The laws of CYCLE, and what consumes a frame -/

namespace Sys2Proof.Machine

section Cycle
variable {s t : State} {v : List Byte} {k : Nat} {found : Bool}

/-- CYCLE keeps at most 12 bytes: what a scan leaves without a preamble, or less than a frame (R73 b). -/
theorem viewAfter_cycle_length_le (ho : ScanOutcome v k found) : (viewAfter v k found .cycle).length ≤ 12 := by
  cases found with
  | false =>
    have := ho.kept_of_notFound
    simp only [viewAfter, Bool.false_eq_true, false_and, if_false, List.length_drop]
    omega
  | true =>
    simp only [viewAfter, true_and]
    split
    · exact Nat.zero_le 12
    · rw [List.length_drop]
      omega

/-- After a CYCLE the view has at most 12 bytes. -/
theorem exec_cycle_view_length (hi : s.Inv) (h : exec .cycle s = .next t) (hv : t.block.view? = some v) :
    v.length ≤ 12 := by
  obtain ⟨u, hu⟩ := hi.1.exists_view
  obtain ⟨k, found, ho⟩ := exists_scanOutcome hu
  cases hv.symm.trans (exec_view hi hu ho h)
  exact viewAfter_cycle_length_le ho

/-- With fewer bytes than a frame in the view STATE is not FRAME_READY (R20). -/
theorem Block.syncState_ne_frameReady {b : Block} (hl : b.lengthN < 13) : b.syncState ≠ .frameReady := by
  have hstate : b.syncState = if b.sync then .awaitingBody else .seeking := by rw [Block.syncState, if_pos hl]
  rw [hstate]
  split <;> nofun

/-- The three result codes of CYCLE (R72). -/
theorem exec_cycle_result (hi : s.Inv) (hv : s.block.view? = some v) (ho : ScanOutcome v k found)
    (h : exec .cycle s = .next t) :
    t.block.result = if found then (if v.length - k < 13 then .incomplete else .decoded) else .notFound := by
  cases (exec_eq_answer hi.1 hv ho .cycle).symm.trans h
  exact closedReply_result (Block.view_length hv) .cycle

theorem exec_cycle_result_mem (hi : s.Inv) (h : exec .cycle s = .next t) :
    t.block.result ∈ [.notFound, .incomplete, .decoded] := by
  obtain ⟨v, hv⟩ := hi.1.exists_view
  obtain ⟨k, found, ho⟩ := exists_scanOutcome hv
  rw [exec_cycle_result hi hv ho h]
  split
  · split <;> simp
  · simp

end Cycle

/-- Settles O39: the result codes and the view that CYCLE leaves, and its counters and SVALID through its closed reply. -/
theorem cycleLaws : Obligations.CycleLaws := by
  intro s t v hi hv h
  have hmem := exec_cycle_result_mem hi h
  obtain ⟨u, hu⟩ := (hi.exec h).1.exists_view
  have hlen : t.block.lengthN ≤ 12 := Block.view_length hu ▸ exec_cycle_view_length hi h hu
  refine ⟨hmem, ?misalign, hlen, Block.syncState_ne_frameReady (by omega), ?svalid, fun k ho hk => ?short⟩
  case misalign =>
    obtain ⟨k, found, ho⟩ := exists_scanOutcome hv
    cases (exec_eq_answer hi.1 hv ho .cycle).symm.trans h
    rw [State.answer_block] at hmem ⊢
    have hne : (closedReply s.block v k found .cycle).block.result ≠ .misaligned := by
      intro he
      simp [he] at hmem
    rw [closedReply_counters]
    simp [hne]
  case svalid =>
    obtain ⟨k, found, ho⟩ := exists_scanOutcome hv
    cases (exec_eq_answer hi.1 hv ho .cycle).symm.trans h
    exact closedReply_svalid_iff (.inr rfl)
  case short =>
    cases (cycle_ends_of_short hi hv ho hk).symm.trans h
    exact List.append_nil _

/-! ## DECODE leaves the frame, CYCLE takes it -/

section Frame
variable {s t : State} {v : List Byte}

/-- DECODE ends with DECODED exactly on a view that starts with a frame (R69). -/
theorem decodeResult_eq_decoded (h : decodeResult v = .decoded) : 13 ≤ v.length ∧ hasPreamble v 0 = true := by
  refine ⟨Nat.not_lt.1 fun hl => ?_, hasPreamble_of_decodeResult h⟩
  rw [decodeResult, if_pos hl] at h
  cases h

theorem scanOutcome_zero (h : hasPreamble v 0 = true) : ScanOutcome v 0 true := ⟨h, fun _ hj => nomatch hj⟩

/-- DECODE and CYCLE both deliver a frame at the start of the view (R68, R69, R71). -/
theorem exec_delivers (hi : s.Inv) (hv : s.block.view? = some v) (hl : 13 ≤ v.length) (hp : hasPreamble v 0 = true)
    {i : Instr} (h : i = .decode ∨ i = .cycle) :
    ∃ t, exec i s = .next t ∧ t.block.result = .decoded ∧ t.frames = s.frames ++ [frameSamples v] ∧
      t.block.counters.frame = s.block.counters.frame + 1#32 := by
  rcases h with rfl | rfl
  · exact ⟨_, decode_ends_of_frame hv hl hp, rfl, rfl, rfl⟩
  · exact ⟨_, cycle_ends_of_frame hi hv (scanOutcome_zero hp) hl, rfl, rfl, rfl⟩

end Frame

/-- Settles O42: after a DECODE the frame still starts the view, so it is delivered again; after a CYCLE the view is
empty. -/
theorem onlyCycleConsumesTheFrame : Obligations.OnlyCycleConsumesTheFrame := by
  intro s t v hi hv h hd
  obtain ⟨hl, hp⟩ := decodeResult_eq_decoded ((exec_decode_inv hv h).1.symm.trans hd)
  have hti := hi.exec h
  cases (decode_ends_of_frame hv hl hp).symm.trans h
  refine ⟨fun i hdc => ?again, _, cycle_ends_of_frame hi hv (scanOutcome_zero hp) hl, rfl, ?consumed⟩
  case again =>
    obtain ⟨u, hu, hresult, hframes, hcount⟩ := exec_delivers hti hv hl hp hdc
    refine ⟨u, hu, hresult, hframes.trans (List.append_assoc _ _ _), hcount.trans ?_⟩
    exact BitVec.add_assoc s.block.counters.frame 1#32 1#32
  case consumed =>
    exact ⟨_, decode_ends_of_short rfl (show ([] : List Byte).length < 13 by decide), rfl, List.append_nil _⟩

end Sys2Proof.Machine

/-! # Deliveries: runs of commands, WRITEs and POLLs -/

namespace Sys2Proof.Machine

/-! ## Runs of commands with their responses -/

/-- The commands complete one after the other from `s` to `t`, and `rs` are the words they respond. -/
inductive Runs : List Instr → State → List Word → State → Prop
  | nil (s : State) : Runs [] s [] s
  | cons {i : Instr} {is : List Instr} {s t u : State} {r : Word} {rs : List Word} (head : exec i s = .next t)
      (response : t.responses = s.responses ++ [r]) (tail : Runs is t rs u) : Runs (i :: is) s (r :: rs) u

section Runs
variable {is js : List Instr} {i : Instr} {s t u : State} {rs : List Word}

theorem Runs.execAll (h : Runs is s rs t) : execAll is s = .next t := by
  induction h with
  | nil s => rfl
  | cons head _ _ ih => exact (execAll_cons head _).trans ih

theorem Runs.responses (h : Runs is s rs t) : t.responses = s.responses ++ rs := by
  induction h with
  | nil s => exact (List.append_nil _).symm
  | cons _ response _ ih => rw [ih, response, List.append_assoc, List.singleton_append]

theorem Runs.inv (h : Runs is s rs t) (hi : s.Inv) : t.Inv := by
  induction h with
  | nil s => exact hi
  | cons head _ _ ih => exact ih (hi.exec head)

/-- From a state that meets the invariant every sequence of commands completes. -/
theorem State.Inv.exists_runs (hi : s.Inv) (is : List Instr) : ∃ rs t, Runs is s rs t := by
  induction is generalizing s with
  | nil => exact ⟨[], s, .nil s⟩
  | cons i is ih =>
    obtain ⟨v, hv⟩ := hi.1.exists_view
    obtain ⟨k, found, ho⟩ := exists_scanOutcome hv
    have h := exec_eq_answer hi.1 hv ho i
    obtain ⟨rs, t, ht⟩ := ih (hi.exec h)
    exact ⟨_, t, .cons h rfl ht⟩

theorem Runs.of_append (h : Runs (is ++ js) s rs u) :
    ∃ rs₁ t rs₂, Runs is s rs₁ t ∧ Runs js t rs₂ u ∧ rs = rs₁ ++ rs₂ := by
  induction is generalizing s rs with
  | nil => exact ⟨[], s, rs, .nil s, h, rfl⟩
  | cons i is ih =>
    cases h with
    | @cons _ _ _ _ _ r _ head response tail =>
      obtain ⟨rs₁, t, rs₂, h₁, h₂, rfl⟩ := ih tail
      exact ⟨r :: rs₁, t, rs₂, .cons head response h₁, h₂, rfl⟩

theorem Runs.of_singleton (h : Runs [i] s rs t) :
    ∃ r, exec i s = .next t ∧ t.responses = s.responses ++ [r] ∧ rs = [r] := by
  cases h with
  | @cons _ _ _ _ _ r _ head response tail =>
    cases tail
    exact ⟨r, head, response, rfl⟩

end Runs

/-! ## WRITEs -/

section Writes
variable {s t : State} {v bs : List Byte} {rs : List Word}

/-- What accepted WRITEs of `bs` do to a view `v`: they append the bytes, and count and emit nothing. -/
structure Appends (v bs : List Byte) (s t : State) : Prop where
  view     : t.block.view? = some (v ++ bs)
  counters : t.block.counters = s.block.counters
  frames   : t.frames = s.frames

/-- A WRITE responds 6 on a full view, and otherwise responds 0 and appends its byte (R61). -/
theorem exec_write_cases (hi : s.Inv) (hv : s.block.view? = some v) {x : Byte} (h : exec (.write x) s = .next t)
    {r : Word} (hr : t.responses = s.responses ++ [r]) :
    (v.length = 256 ∧ r = 6#32) ∨ (v.length < 256 ∧ r = 0#32 ∧ Appends v [x] s t) := by
  have hl := Block.view_length hv
  have hf := hi.1.fits
  obtain ⟨k, found, ho⟩ := exists_scanOutcome hv
  have hview := exec_view hi hv ho h
  cases (exec_eq_answer hi.1 hv ho (.write x)).symm.trans h
  obtain rfl : (closedReply s.block v k found (.write x)).response = r :=
    List.singleton_inj.1 (List.append_cancel_left hr)
  by_cases hfull : v.length = 256
  · refine .inl ⟨hfull, ?_⟩
    simp only [closedReply, ← hl, if_pos hfull]
    rfl
  · obtain ⟨-, -, -, hcounters⟩ := s.block.roomMade_keeps v
    rw [viewAfter, if_neg hfull] at hview
    refine .inr ⟨by omega, ?_, hview, ?_, ?_⟩
    · simp only [closedReply, ← hl, if_neg hfull]
      rfl
    · simp only [State.answer_block, closedReply, ← hl, if_neg hfull]
      exact hcounters
    · simp only [State.answer_frames, closedReply, ← hl, if_neg hfull]
      exact List.append_nil _

/-- WRITEs none of which overflows append all their bytes, and each responds 0. -/
theorem Runs.appends (h : Runs (bs.map .write) s rs t) (hi : s.Inv) (hv : s.block.view? = some v) (h6 : 6#32 ∉ rs) :
    Appends v bs s t ∧ ∀ r ∈ rs, r = 0#32 := by
  induction bs generalizing s v rs with
  | nil =>
    cases h
    exact ⟨⟨by rwa [List.append_nil], rfl, rfl⟩, nofun⟩
  | cons x bs ih =>
    cases h with
    | cons head response tail =>
      obtain ⟨hne, h6'⟩ := not_or.1 (mt List.mem_cons.2 h6)
      rcases exec_write_cases hi hv head response with ⟨-, rfl⟩ | ⟨-, rfl, hx⟩
      · exact absurd rfl hne
      · obtain ⟨⟨hview, hcounters, hframes⟩, hzero⟩ := ih tail (hi.exec head) hx.view h6'
        refine ⟨⟨?_, hcounters.trans hx.counters, hframes.trans hx.frames⟩, List.forall_mem_cons.2 ⟨rfl, hzero⟩⟩
        rw [hview, List.append_assoc, List.singleton_append]

/-- WRITEs that fit in the window do not overflow (R25). -/
theorem Runs.no_overflow_of_fits (h : Runs (bs.map .write) s rs t) (hi : s.Inv) (hv : s.block.view? = some v)
    (hl : v.length + bs.length ≤ 256) : 6#32 ∉ rs := by
  obtain ⟨u, hu, -, -, hresponses⟩ := execAll_writes hi hv bs hl
  cases hu.symm.trans h.execAll
  obtain rfl := List.append_cancel_left (h.responses.symm.trans hresponses)
  intro h6
  cases List.eq_of_mem_replicate h6

end Writes

/-- Settles O41: a CYCLE leaves at most 12 bytes, so 244 more fit and no WRITE overflows. -/
theorem deliveryAfterCycleIsSafe : Obligations.DeliveryAfterCycleIsSafe := by
  intro s t v bs hi h hv hb
  have hti := hi.exec h
  have hl := exec_cycle_view_length hi h hv
  obtain ⟨rs, u, hu⟩ := hti.exists_runs (bs.map .write)
  obtain ⟨⟨hview, hcounters, -⟩, -⟩ := hu.appends hti hv (hu.no_overflow_of_fits hti hv (by omega))
  exact ⟨u, hu.execAll, hview, congrArg Counters.overflow hcounters⟩

/-! ## A frame behind garbage, cut anywhere -/

section Stream
variable {D P : List Byte} {d g k : Nat} {found : Bool}

theorem hasPreamble_of_prefix (hP : P <+: D) {j : Nat} (hj : j + 3 ≤ P.length) : hasPreamble D j = hasPreamble P j := by
  obtain ⟨Q, rfl⟩ := hP
  exact hasPreamble_append hj

/-- A scan of what has arrived of the stream, once the preamble at `g` is complete: it finds that preamble. -/
theorem ScanOutcome.of_prefix (hD : ScanOutcome D g true) (hP : P <+: D) (hd : d ≤ g) (hl : g + 3 ≤ P.length) :
    ScanOutcome (P.drop d) (g - d) true := by
  obtain ⟨hg, hbefore⟩ := hD.found
  refine ⟨?_, fun j hj => ?_⟩
  · rwa [hasPreamble_drop, Nat.add_sub_cancel' hd, ← hasPreamble_of_prefix hP hl]
  · rw [hasPreamble_drop, ← hasPreamble_of_prefix hP (by omega)]
    exact hbefore (d + j) (by omega)

/-- Before that a scan finds nothing and discards nothing of the frame. -/
theorem ScanOutcome.notFound_of_prefix (hD : ScanOutcome D g true) (hP : P <+: D) (hd : d ≤ g) (hl : P.length < g + 3)
    (ho : ScanOutcome (P.drop d) k found) : found = false ∧ d + k ≤ g := by
  cases found with
  | false =>
    have hk := ho.notFound.1
    rw [List.length_drop] at hk
    exact ⟨rfl, by omega⟩
  | true =>
    have hk := ho.found.1
    have hbound := hasPreamble_bound hk
    rw [List.length_drop] at hbound
    rw [hasPreamble_drop, ← hasPreamble_of_prefix hP (by omega), hD.found.2 (d + k) (by omega)] at hk
    cases hk

/-- Garbage and then a frame: the preamble of the frame is the first of the stream. -/
theorem scanOutcome_of_garbage_frame {G F T : List Byte} (hF : F.take 3 = [0xAA#8, 0xAA#8, 0xAA#8])
    (hG : ∀ j < G.length, hasPreamble (G ++ F) j = false) : ScanOutcome (G ++ F ++ T) G.length true := by
  have hF' : F = [0xAA#8, 0xAA#8, 0xAA#8] ++ F.drop 3 := by rw [← hF, List.take_append_drop]
  have h3 : 3 ≤ F.length := by
    rw [hF', List.length_append]
    exact Nat.le_add_right 3 _
  have hstream : G ++ F ++ T = G ++ [0xAA#8, 0xAA#8, 0xAA#8] ++ (F.drop 3 ++ T) := by
    conv_lhs => rw [hF']
    simp only [List.append_assoc]
  have hG' : ∀ j < G.length, hasPreamble (G ++ F ++ T) j = false := fun j hj => by
    rw [hasPreamble_append (by rw [List.length_append]; omega)]
    exact hG j hj
  rw [hstream] at hG' ⊢
  exact scanOutcome_of_garbage hG'

end Stream

/-! ## POLLs -/

/-- What the machine has done from `s` to `t` with the bytes `P` that have arrived, before a frame is complete: the first
`d` are discarded and counted, the rest is the view, and nothing is emitted. -/
structure Awaits (s : State) (P : List Byte) (d : Nat) (t : State) : Prop where
  view     : t.block.view? = some (P.drop d)
  discard  : t.block.counters.discard = s.block.counters.discard + BitVec.ofNat 32 d
  frame    : t.block.counters.frame = s.block.counters.frame
  overflow : t.block.counters.overflow = s.block.counters.overflow
  frames   : t.frames = s.frames

/-- What the machine has done from `s` to `t` when the CYCLE after the frame `F` has ended (R73 d). -/
structure Decodes (s : State) (F : List Byte) (d : Nat) (t : State) : Prop where
  view     : t.block.view? = some []
  discard  : t.block.counters.discard = s.block.counters.discard + BitVec.ofNat 32 d
  frame    : t.block.counters.frame = s.block.counters.frame + 1#32
  overflow : t.block.counters.overflow = s.block.counters.overflow
  frames   : t.frames = s.frames ++ [frameSamples F]
  samples  : t.block.samples = frameSamples F
  svalid   : t.block.svalid = true

section Polls
variable {s t u : State} {v c D P : List Byte} {d g : Nat} {rs : List Word}

theorem Awaits.start (hv : s.block.view? = some v) : Awaits s v 0 s :=
  ⟨hv, (BitVec.add_zero _).symm, rfl, rfl, rfl⟩

theorem Awaits.appends (h : Awaits s P d t) (hd : d ≤ P.length) (ha : Appends (P.drop d) c t u) :
    Awaits s (P ++ c) d u := by
  refine ⟨?_, ha.counters ▸ h.discard, ha.counters ▸ h.frame, ha.counters ▸ h.overflow, ha.frames.trans h.frames⟩
  rw [List.drop_append_of_le_length hd]
  exact ha.view

/-- Counting `d` bytes and then `k` is counting `d + k`, modulo 2^32. -/
theorem add_ofNat_add_ofNat (x : Word) (d k : Nat) :
    x + BitVec.ofNat 32 d + BitVec.ofNat 32 k = x + BitVec.ofNat 32 (d + k) := by
  rw [BitVec.add_assoc, BitVec.ofNat_add]

/-- A CYCLE before the frame is complete: it goes on waiting, and does not respond DECODED. -/
theorem Awaits.cycle (h : Awaits s P d t) (hi : t.Inv) (hD : ScanOutcome D g true) (hP : P <+: D) (hd : d ≤ g)
    (hdP : d ≤ P.length) (hl : P.length < g + 13) (hu : exec .cycle t = .next u) {r : Word}
    (hr : u.responses = t.responses ++ [r]) : r ≠ 4#32 ∧ ∃ d', d' ≤ g ∧ d' ≤ P.length ∧ Awaits s P d' u := by
  by_cases hpre : g + 3 ≤ P.length
  · have ho := hD.of_prefix hP hd hpre
    have hview := exec_view hi h.view ho hu
    have hshort : (P.drop d).length - (g - d) < 13 := by rw [List.length_drop]; omega
    have hg : d + (g - d) = g := Nat.add_sub_cancel' hd
    rw [viewAfter, if_neg (by omega), List.drop_drop, hg] at hview
    cases (cycle_ends_of_short hi h.view ho hshort).symm.trans hu
    cases List.append_cancel_left hr
    refine ⟨by decide, g, Nat.le_refl g, by omega, hview, ?_, h.frame, h.overflow,
      (List.append_nil _).trans h.frames⟩
    show t.block.counters.discard + _ = _
    rw [h.discard, add_ofNat_add_ofNat, hg]
  · obtain ⟨k, found, ho⟩ := exists_scanOutcome h.view
    obtain ⟨rfl, hk⟩ := hD.notFound_of_prefix hP hd (by omega) ho
    have hkP := ho.le
    have hview := exec_view hi h.view ho hu
    rw [List.length_drop] at hkP
    rw [viewAfter, if_neg (by simp), List.drop_drop] at hview
    cases (cycle_ends_of_notFound hi h.view ho).symm.trans hu
    cases List.append_cancel_left hr
    refine ⟨by decide, d + k, hk, by omega, hview, ?_, h.frame, h.overflow, (List.append_nil _).trans h.frames⟩
    show t.block.counters.discard + _ = _
    rw [h.discard, add_ofNat_add_ofNat]

/-- The CYCLE after the frame is complete decodes it. -/
theorem Awaits.cycle_decodes {G F T : List Byte} (h : Awaits s (G ++ F ++ T) d t) (hi : t.Inv)
    (hD : ScanOutcome (G ++ F ++ T) G.length true) (hF : F.length = 13) (hd : d ≤ G.length)
    (hu : exec .cycle t = .next u) {r : Word} (hr : u.responses = t.responses ++ [r]) :
    r = 4#32 ∧ Decodes s F G.length u := by
  have hlen : (G ++ F ++ T).length = G.length + 13 + T.length := by rw [List.length_append, List.length_append, hF]
  have ho := hD.of_prefix (List.prefix_refl _) hd (by omega)
  have hg : d + (G.length - d) = G.length := Nat.add_sub_cancel' hd
  have hlong : 13 ≤ ((G ++ F ++ T).drop d).length - (G.length - d) := by rw [List.length_drop]; omega
  have hsamples : frameSamples (((G ++ F ++ T).drop d).drop (G.length - d)) = frameSamples F := by
    rw [List.drop_drop, hg, List.append_assoc, List.drop_left, ← frameSamples_take, List.take_append_of_le_length
      (by omega), frameSamples_take]
  have hends := cycle_ends_of_frame hi h.view ho hlong
  rw [hsamples] at hends
  cases hends.symm.trans hu
  cases List.append_cancel_left hr
  refine ⟨rfl, rfl, ?_, congrArg (· + 1#32) h.frame, h.overflow, congrArg (· ++ [frameSamples F]) h.frames, rfl, rfl⟩
  show t.block.counters.discard + _ = _
  rw [h.discard, add_ofNat_add_ofNat, hg]

/-- A POLL is the WRITEs of its bytes and then one CYCLE (R58). -/
theorem Runs.of_poll (h : Runs (pollCommands c) s rs u) :
    ∃ rs' t r, Runs (c.map .write) s rs' t ∧ exec .cycle t = .next u ∧ u.responses = t.responses ++ [r] ∧
      rs = rs' ++ [r] := by
  obtain ⟨rs', t, rs₂, hw, hc, rfl⟩ := Runs.of_append h
  obtain ⟨r, hcycle, hr, rfl⟩ := hc.of_singleton
  exact ⟨rs', t, r, hw, hcycle, hr, rfl⟩

/-- The WRITEs of a POLL, if none overflows. -/
theorem Awaits.writes (h : Awaits s P d t) (hi : t.Inv) (hd : d ≤ P.length) (hr : Runs (c.map .write) t rs u)
    (h6 : 6#32 ∉ rs) : Awaits s (P ++ c) d u ∧ 4#32 ∉ rs := by
  obtain ⟨ha, hzero⟩ := hr.appends hi h.view h6
  exact ⟨h.appends hd ha, fun h4 => nomatch hzero _ h4⟩

/-- POLLs before the frame is complete, if no WRITE overflows: none responds DECODED. -/
theorem Awaits.polls {cs : List (List Byte)} (h : Awaits s P d t) (hi : t.Inv) (hD : ScanOutcome D g true)
    (hP : P ++ cs.flatten <+: D) (hd : d ≤ g) (hdP : d ≤ P.length) (hl : (P ++ cs.flatten).length < g + 13)
    (hr : Runs (cs.flatMap pollCommands) t rs u) (h6 : 6#32 ∉ rs) :
    4#32 ∉ rs ∧ ∃ d', d' ≤ g ∧ d' ≤ (P ++ cs.flatten).length ∧ Awaits s (P ++ cs.flatten) d' u := by
  induction cs generalizing t P d rs with
  | nil =>
    cases hr
    rw [List.flatten_nil, List.append_nil]
    exact ⟨List.not_mem_nil, d, hd, hdP, h⟩
  | cons c cs ih =>
    rw [List.flatten_cons, ← List.append_assoc] at hP hl ⊢
    rw [List.flatMap_cons] at hr
    obtain ⟨rs₁, t₁, rs₂, hpoll, hrest, rfl⟩ := hr.of_append
    obtain ⟨rs', t', r, hw, hc, hresp, rfl⟩ := hpoll.of_poll
    simp only [List.mem_append, List.mem_singleton, not_or] at h6 ⊢
    obtain ⟨⟨h6w, -⟩, h6'⟩ := h6
    have hPc : P ++ c <+: D := (List.prefix_append _ _).trans hP
    have hdPc : d ≤ (P ++ c).length := by rw [List.length_append]; omega
    have hlc : (P ++ c).length < g + 13 := by rw [List.length_append] at hl; omega
    obtain ⟨hwait, h4w⟩ := h.writes hi hdP hw h6w
    obtain ⟨h4c, d', hd', hdP', hwait'⟩ := hwait.cycle (hw.inv hi) hD hPc hd hdPc hlc hc hresp
    obtain ⟨h4, hwait''⟩ := ih hwait' (hpoll.inv hi) hP hd' hdP' hl hrest h6'
    exact ⟨⟨⟨h4w, h4c.symm⟩, h4⟩, hwait''⟩

/-- Law (d) of R73 on a run in which no WRITE overflows. -/
theorem Runs.decodes {v G F T last : List Byte} {earlier : List (List Byte)}
    (hr : Runs ((earlier ++ [last]).flatMap pollCommands) s rs t) (hi : s.Inv) (hv : s.block.view? = some v)
    (hF : F.length = 13) (hpre : F.take 3 = [0xAA#8, 0xAA#8, 0xAA#8])
    (hG : ∀ j < G.length, hasPreamble (G ++ F) j = false) (hstream : v ++ earlier.flatten ++ last = G ++ F ++ T)
    (hl : (v ++ earlier.flatten).length < G.length + 13) (h6 : 6#32 ∉ rs) :
    Decodes s F G.length t ∧ rs.getLast? = some 4#32 ∧ 4#32 ∉ rs.dropLast := by
  have hD := scanOutcome_of_garbage_frame (T := T) hpre hG
  rw [List.flatMap_append, List.flatMap_singleton] at hr
  obtain ⟨rs₁, t₁, rs₂, hearlier, hpoll, rfl⟩ := hr.of_append
  obtain ⟨rs', t', r, hw, hc, hresp, rfl⟩ := hpoll.of_poll
  simp only [List.mem_append, List.mem_singleton, not_or] at h6
  obtain ⟨h6e, h6w, -⟩ := h6
  obtain ⟨h4e, d, hd, hdP, hwait⟩ := (Awaits.start hv).polls hi hD ⟨last, hstream⟩ (Nat.zero_le _) (Nat.zero_le _) hl
    hearlier h6e
  obtain ⟨hwait', h4w⟩ := hwait.writes (hearlier.inv hi) hdP hw h6w
  rw [hstream] at hwait'
  obtain ⟨rfl, hdec⟩ := hwait'.cycle_decodes (hw.inv (hearlier.inv hi)) hD hF hd hc hresp
  rw [← List.append_assoc, List.getLast?_concat, List.dropLast_concat, List.mem_append]
  exact ⟨hdec, rfl, not_or.2 ⟨h4e, h4w⟩⟩

/-- A CYCLE does not respond OVERFLOW. -/
theorem exec_cycle_response_ne (hi : s.Inv) (h : exec .cycle s = .next t) {r : Word}
    (hr : t.responses = s.responses ++ [r]) : r ≠ 6#32 := by
  obtain ⟨v, hv⟩ := hi.1.exists_view
  obtain ⟨k, found, ho⟩ := exists_scanOutcome hv
  have hmem := exec_cycle_result_mem hi h
  cases (exec_eq_answer hi.1 hv ho .cycle).symm.trans h
  obtain rfl : (closedReply s.block v k found .cycle).response = r := List.singleton_inj.1 (List.append_cancel_left hr)
  rw [(closedReply_response (i := .cycle) rfl).1]
  simp only [State.answer_block, List.mem_cons, List.not_mem_nil, or_false] at hmem
  rcases hmem with h | h | h <;> rw [h] <;> decide

/-- POLLs of at most 244 bytes each, from a view that a CYCLE can leave, do not overflow (R94). -/
theorem Runs.no_overflow_of_small_polls {cs : List (List Byte)} (h : Runs (cs.flatMap pollCommands) s rs t) (hi : s.Inv)
    (hv : s.block.view? = some v) (hl : v.length ≤ 12) (hcs : ∀ c ∈ cs, c.length ≤ 244) : 6#32 ∉ rs := by
  induction cs generalizing s v rs with
  | nil =>
    cases h
    exact List.not_mem_nil
  | cons c cs ih =>
    obtain ⟨hc, hcs⟩ := List.forall_mem_cons.1 hcs
    rw [List.flatMap_cons] at h
    obtain ⟨rs₁, t₁, rs₂, hpoll, hrest, rfl⟩ := h.of_append
    obtain ⟨rs', t', r, hw, hcycle, hresp, rfl⟩ := hpoll.of_poll
    have hti := hw.inv hi
    obtain ⟨v₁, hv₁⟩ := (hpoll.inv hi).1.exists_view
    simp only [List.mem_append, List.mem_singleton, not_or]
    exact ⟨⟨hw.no_overflow_of_fits hi hv (by omega), (exec_cycle_response_ne hti hcycle hresp).symm⟩,
      ih hrest (hpoll.inv hi) hv₁ (exec_cycle_view_length hti hcycle hv₁) hcs⟩

end Polls

/-- Settles O46: every run completes, and the one without an overflow decodes the frame at its last CYCLE. -/
theorem splitFrameIsDecodedUnlessAWriteOverflows : Obligations.SplitFrameIsDecodedUnlessAWriteOverflows := by
  intro s u G F T earlier last hi hv hF hpre hG hstream hl
  obtain ⟨rs, t, hr⟩ := hi.exists_runs ((earlier ++ [last]).flatMap pollCommands)
  refine ⟨t, rs, hr.execAll, hr.responses, fun h6 => ?_⟩
  obtain ⟨hdec, hlast, hearlier⟩ := hr.decodes hi hv hF hpre hG hstream hl h6
  exact ⟨hlast, hearlier, hdec.frames, hdec.samples, hdec.svalid, hdec.view, hdec.discard, hdec.frame⟩

/-- Settles O40: POLLs of at most 244 bytes do not overflow, so the run decodes the frame. -/
theorem splitFrameIsDecodedByTheCycleAfterItsLastByte :
    Obligations.SplitFrameIsDecodedByTheCycleAfterItsLastByte := by
  intro s u G F T earlier last hi hv hu hF hpre hG hstream hl hsmall
  obtain ⟨rs, t, hr⟩ := hi.exists_runs ((earlier ++ [last]).flatMap pollCommands)
  have h6 := hr.no_overflow_of_small_polls hi hv hu hsmall
  obtain ⟨hdec, hlast, -⟩ := hr.decodes hi hv hF hpre hG hstream hl h6
  refine ⟨t, hr.execAll, hdec.frames, hdec.samples, hdec.svalid, ?_, hdec.view, hdec.discard, hdec.frame, hdec.overflow⟩
  rw [hr.responses, List.getLast?_append, hlast]
  rfl

end Sys2Proof.Machine
